-- ==== Sys2Proof/Word.lean ====
section
/-! DEFINITION. The word types of the machine: what the spec treats as bits, each at its width. -/

namespace Sys2Proof

/-- 8 bits: a register, a memory cell, a timer (10_state.md R20, R26, R32). -/
abbrev Byte := BitVec 8

/-- 16 bits: `PC`, `I`, a stack slot, an opcode (10_state.md R22 to R24; 30_encoding.md R70). -/
abbrev Word := BitVec 16

/-- 12 bits: the address immediate `nnn` (30_encoding.md R71). -/
abbrev Addr12 := BitVec 12

/-- 4 bits: one nibble of an opcode (00_scope.md R12). -/
abbrev Nibble := BitVec 4

/-- A register number: the 4-bit field `x` or `y`; every value names a register (10_state.md R20). -/
abbrev Reg := BitVec 4

/-- `VF`, register 15 (10_state.md R21). -/
abbrev Reg.vf : Reg := 0xF#4

/-- `V0`, the offset register of JP V0 (41_control_flow.md R117). -/
abbrev Reg.v0 : Reg := 0x0#4

end Sys2Proof
end

