-- ==== Sys2Proof/Syntax.lean ====
section
/-! DEFINITION. The instructions: one constructor per row of spec/opcode_table.json, in the table's order, with the
operand fields of 30_encoding.md R71 and R75 at their widths. -/

namespace Sys2Proof

/-- The 34 instructions of 30_encoding.md R75. `x`, `y` are register numbers, `kk` a byte, `nnn` an address, `n` a
sprite height. SHR and SHL keep the field `y` that they ignore (R79), so that no bit of a word is dropped. -/
inductive Instr where
  | cls
  | ret
  | jp (nnn : Addr12)
  | call (nnn : Addr12)
  | seImm (x : Reg) (kk : Byte)
  | sneImm (x : Reg) (kk : Byte)
  | seReg (x y : Reg)
  | ldImm (x : Reg) (kk : Byte)
  | addImm (x : Reg) (kk : Byte)
  | ldReg (x y : Reg)
  | orReg (x y : Reg)
  | andReg (x y : Reg)
  | xorReg (x y : Reg)
  | addReg (x y : Reg)
  | subReg (x y : Reg)
  | shr (x y : Reg)
  | subnReg (x y : Reg)
  | shl (x y : Reg)
  | sneReg (x y : Reg)
  | ldI (nnn : Addr12)
  | jpV0 (nnn : Addr12)
  | rnd (x : Reg) (kk : Byte)
  | drw (x y : Reg) (n : Nibble)
  | skp (x : Reg)
  | sknp (x : Reg)
  | ldFromDT (x : Reg)
  | ldKey (x : Reg)
  | ldDT (x : Reg)
  | ldST (x : Reg)
  | addI (x : Reg)
  | ldFont (x : Reg)
  | ldBcd (x : Reg)
  | storeRegs (x : Reg)
  | loadRegs (x : Reg)
  deriving DecidableEq, Repr

/-- The six formats of 30_encoding.md R72. -/
inductive Format where
  | fixed
  | nnn
  | xkk
  | xyn
  | xy
  | x
  deriving DecidableEq, Repr

/-- The format of each instruction (30_encoding.md R75). -/
def Instr.format : Instr → Format
  | .cls | .ret => .fixed
  | .jp _ | .call _ | .ldI _ | .jpV0 _ => .nnn
  | .seImm _ _ | .sneImm _ _ | .ldImm _ _ | .addImm _ _ | .rnd _ _ => .xkk
  | .drw _ _ _ => .xyn
  | .seReg _ _ | .ldReg _ _ | .orReg _ _ | .andReg _ _ | .xorReg _ _ | .addReg _ _ | .subReg _ _ | .shr _ _
  | .subnReg _ _ | .shl _ _ | .sneReg _ _ => .xy
  | .skp _ | .sknp _ | .ldFromDT _ | .ldKey _ | .ldDT _ | .ldST _ | .addI _ | .ldFont _ | .ldBcd _ | .storeRegs _
  | .loadRegs _ => .x

end Sys2Proof
end

