-- ==== Sys2Proof/WellFormed.lean ====
section
/-! DEFINITION. When the operands written for an instruction are ones its encoding can hold (30_encoding.md R71, R73,
R80). A term of `Instr` carries each operand at its field's width, so a checked operand is what it holds; the check
itself is on plain numbers, as an assembler is given them. -/

namespace Sys2Proof

/-- The operands of one instruction as plain numbers, before any width is imposed. A format uses the ones it names. -/
structure Operands where
  x : Nat := 0
  y : Nat := 0
  n : Nat := 0
  kk : Nat := 0
  nnn : Nat := 0
  deriving DecidableEq, Repr

/-- The operand syntax of 30_encoding.md R80, format by format: `V0` to `VF`, a 4-bit `n`, an 8-bit `kk`, a 12-bit
`nnn`. An operand that the format does not use is unconstrained. -/
def Operands.wellFormed (f : Format) (o : Operands) : Bool :=
  match f with
  | .fixed => true
  | .nnn => decide (o.nnn < 4096)
  | .xkk => decide (o.x < 16) && decide (o.kk < 256)
  | .xyn => decide (o.x < 16) && decide (o.y < 16) && decide (o.n < 16)
  | .xy => decide (o.x < 16) && decide (o.y < 16)
  | .x => decide (o.x < 16)

/-- The operands an instruction holds, as plain numbers. -/
def Instr.operands : Instr → Operands
  | .cls | .ret => {}
  | .jp a | .call a | .ldI a | .jpV0 a => { nnn := a.toNat }
  | .seImm x k | .sneImm x k | .ldImm x k | .addImm x k | .rnd x k => { x := x.toNat, kk := k.toNat }
  | .drw x y n => { x := x.toNat, y := y.toNat, n := n.toNat }
  | .seReg x y | .ldReg x y | .orReg x y | .andReg x y | .xorReg x y | .addReg x y | .subReg x y | .shr x y
  | .subnReg x y | .shl x y | .sneReg x y => { x := x.toNat, y := y.toNat }
  | .skp x | .sknp x | .ldFromDT x | .ldKey x | .ldDT x | .ldST x | .addI x | .ldFont x | .ldBcd x | .storeRegs x
  | .loadRegs x => { x := x.toNat }

/-- An instruction is well-formed when its operands pass the check of its format. By the types of `Instr` every one
does (Laws/PerInstr.lean). -/
abbrev Instr.WellFormed (i : Instr) : Prop :=
  i.operands.wellFormed i.format = true

end Sys2Proof
end

