-- ==== Sys2Proof/Decode.lean ====
section
/-! DEFINITION. The decoder, total on any bytes and rejecting by name; after it the encoder, and the opcode map as
data. Bit patterns: 30_encoding.md R75 (PRESUMED for 29 of the 34 rows, the spec's general knowledge, unsafe: log 5). -/

namespace Sys2Proof

/-- `n0 = op[15:12]`, the major opcode (30_encoding.md R71). -/
def opN0 (op : Word) : Nibble := op.extractLsb' 12 4

/-- `x = op[11:8]` (30_encoding.md R71). -/
def opX (op : Word) : Reg := op.extractLsb' 8 4

/-- `y = op[7:4]` (30_encoding.md R71). -/
def opY (op : Word) : Reg := op.extractLsb' 4 4

/-- `n = op[3:0]` (30_encoding.md R71). -/
def opN (op : Word) : Nibble := op.extractLsb' 0 4

/-- `kk = op[7:0]` (30_encoding.md R71). -/
def opKk (op : Word) : Byte := op.extractLsb' 0 8

/-- `nnn = op[11:0]` (30_encoding.md R71). -/
def opNnn (op : Word) : Addr12 := op.extractLsb' 0 12

/-- Why bytes are no instruction: fewer than two of them, or one of the six classes of unmatched words of
30_encoding.md R76. -/
inductive DecodeError where
  /-- fewer than two bytes are left -/
  | truncated
  /-- `0nnn` with `nnn` not 0x0E0 and not 0x0EE -/
  | unmatched0
  /-- `5xyn` with `n` not 0 -/
  | unmatched5
  /-- `8xyn` with `n` in 8, 9, A, B, C, D, F -/
  | unmatched8
  /-- `9xyn` with `n` not 0 -/
  | unmatched9
  /-- `Exkk` with `kk` not 0x9E and not 0xA1 -/
  | unmatchedE
  /-- `Fxkk` with `kk` none of the nine minor opcodes -/
  | unmatchedF
  deriving DecidableEq, Repr

/-- The words with major opcode 0: the two FIXED rows (30_encoding.md R75 rows 1 and 2). -/
def decode0 (op : Word) : Except DecodeError Instr :=
  match opNnn op with
  | 0x0E0#12 => .ok .cls
  | 0x0EE#12 => .ok .ret
  | _ => .error .unmatched0

/-- The words with major opcode 8: rows 10 to 18, selected by `n` (30_encoding.md R75). -/
def decode8 (op : Word) : Except DecodeError Instr :=
  let x := opX op
  let y := opY op
  match opN op with
  | 0x0#4 => .ok (.ldReg x y)
  | 0x1#4 => .ok (.orReg x y)
  | 0x2#4 => .ok (.andReg x y)
  | 0x3#4 => .ok (.xorReg x y)
  | 0x4#4 => .ok (.addReg x y)
  | 0x5#4 => .ok (.subReg x y)
  | 0x6#4 => .ok (.shr x y)
  | 0x7#4 => .ok (.subnReg x y)
  | 0xE#4 => .ok (.shl x y)
  | _ => .error .unmatched8

/-- The words with major opcode E: rows 24 and 25, selected by `kk` (30_encoding.md R75). -/
def decodeE (op : Word) : Except DecodeError Instr :=
  let x := opX op
  match opKk op with
  | 0x9E#8 => .ok (.skp x)
  | 0xA1#8 => .ok (.sknp x)
  | _ => .error .unmatchedE

/-- The words with major opcode F: rows 26 to 34, selected by `kk` (30_encoding.md R75). -/
def decodeF (op : Word) : Except DecodeError Instr :=
  let x := opX op
  match opKk op with
  | 0x07#8 => .ok (.ldFromDT x)
  | 0x0A#8 => .ok (.ldKey x)
  | 0x15#8 => .ok (.ldDT x)
  | 0x18#8 => .ok (.ldST x)
  | 0x1E#8 => .ok (.addI x)
  | 0x29#8 => .ok (.ldFont x)
  | 0x33#8 => .ok (.ldBcd x)
  | 0x55#8 => .ok (.storeRegs x)
  | 0x65#8 => .ok (.loadRegs x)
  | _ => .error .unmatchedF

/-- The instruction a 16-bit opcode stands for (30_encoding.md R74, R75), or the class of unmatched words it falls in
(R76). It depends on the bits of the opcode alone. The last arm is major opcode F, the one value left. -/
def decodeWord (op : Word) : Except DecodeError Instr :=
  match opN0 op with
  | 0x0#4 => decode0 op
  | 0x1#4 => .ok (.jp (opNnn op))
  | 0x2#4 => .ok (.call (opNnn op))
  | 0x3#4 => .ok (.seImm (opX op) (opKk op))
  | 0x4#4 => .ok (.sneImm (opX op) (opKk op))
  | 0x5#4 => if opN op = 0x0#4 then .ok (.seReg (opX op) (opY op)) else .error .unmatched5
  | 0x6#4 => .ok (.ldImm (opX op) (opKk op))
  | 0x7#4 => .ok (.addImm (opX op) (opKk op))
  | 0x8#4 => decode8 op
  | 0x9#4 => if opN op = 0x0#4 then .ok (.sneReg (opX op) (opY op)) else .error .unmatched9
  | 0xA#4 => .ok (.ldI (opNnn op))
  | 0xB#4 => .ok (.jpV0 (opNnn op))
  | 0xC#4 => .ok (.rnd (opX op) (opKk op))
  | 0xD#4 => .ok (.drw (opX op) (opY op) (opN op))
  | 0xE#4 => decodeE op
  | _ => decodeF op

/-- The opcode two consecutive bytes compose, big-endian: `hi * 256 + lo` (20_memory.md R56). -/
def composeOpcode (hi lo : Byte) : Word := hi ++ lo

/-- The bytes of an opcode at ascending addresses (30_encoding.md R83). -/
def opcodeBytes (op : Word) : List Byte := [op.extractLsb' 8 8, op.extractLsb' 0 8]

/-- Reads one instruction from the front of a byte sequence and answers it with the bytes that follow it. Every
instruction is two bytes long (30_encoding.md R70). -/
def decode : List Byte → Except DecodeError (Instr × List Byte)
  | hi :: lo :: rest =>
    match decodeWord (composeOpcode hi lo) with
    | .ok i => .ok (i, rest)
    | .error e => .error e
  | _ => .error .truncated

/-- The opcode of an instruction (30_encoding.md R83 and the patterns of R75). -/
def encode : Instr → Word
  | .cls => 0x00E0#16
  | .ret => 0x00EE#16
  | .jp nnn => 0x1#4 ++ nnn
  | .call nnn => 0x2#4 ++ nnn
  | .seImm x kk => 0x3#4 ++ x ++ kk
  | .sneImm x kk => 0x4#4 ++ x ++ kk
  | .seReg x y => 0x5#4 ++ x ++ y ++ 0x0#4
  | .ldImm x kk => 0x6#4 ++ x ++ kk
  | .addImm x kk => 0x7#4 ++ x ++ kk
  | .ldReg x y => 0x8#4 ++ x ++ y ++ 0x0#4
  | .orReg x y => 0x8#4 ++ x ++ y ++ 0x1#4
  | .andReg x y => 0x8#4 ++ x ++ y ++ 0x2#4
  | .xorReg x y => 0x8#4 ++ x ++ y ++ 0x3#4
  | .addReg x y => 0x8#4 ++ x ++ y ++ 0x4#4
  | .subReg x y => 0x8#4 ++ x ++ y ++ 0x5#4
  | .shr x y => 0x8#4 ++ x ++ y ++ 0x6#4
  | .subnReg x y => 0x8#4 ++ x ++ y ++ 0x7#4
  | .shl x y => 0x8#4 ++ x ++ y ++ 0xE#4
  | .sneReg x y => 0x9#4 ++ x ++ y ++ 0x0#4
  | .ldI nnn => 0xA#4 ++ nnn
  | .jpV0 nnn => 0xB#4 ++ nnn
  | .rnd x kk => 0xC#4 ++ x ++ kk
  | .drw x y n => 0xD#4 ++ x ++ y ++ n
  | .skp x => 0xE#4 ++ x ++ 0x9E#8
  | .sknp x => 0xE#4 ++ x ++ 0xA1#8
  | .ldFromDT x => 0xF#4 ++ x ++ 0x07#8
  | .ldKey x => 0xF#4 ++ x ++ 0x0A#8
  | .ldDT x => 0xF#4 ++ x ++ 0x15#8
  | .ldST x => 0xF#4 ++ x ++ 0x18#8
  | .addI x => 0xF#4 ++ x ++ 0x1E#8
  | .ldFont x => 0xF#4 ++ x ++ 0x29#8
  | .ldBcd x => 0xF#4 ++ x ++ 0x33#8
  | .storeRegs x => 0xF#4 ++ x ++ 0x55#8
  | .loadRegs x => 0xF#4 ++ x ++ 0x65#8

/-- The two bytes of an instruction in memory (30_encoding.md R83). -/
def encodeBytes (i : Instr) : List Byte := opcodeBytes (encode i)

/-- The instruction the decoder reads from an instruction whose bits are `w`, numbered as spec/opcode_table.json
numbers them; the bits above `nbits` are 0. `none` where the decoder refuses. -/
def decodeTableWord (nbits w : Nat) : Option Instr :=
  match decode (opcodeBytes (BitVec.ofNat 16 (w % 2 ^ nbits))) with
  | .ok (i, _) => some i
  | .error _ => none

/-- One row of the opcode map: `op` selects it when `op & mask == match` (30_encoding.md R74). -/
structure OpcodeRow where
  mnemonic : String
  format : Format
  mask : Word
  matchBits : Word
  deriving DecidableEq, Repr

/-- `op & mask == match` (30_encoding.md R74). -/
def OpcodeRow.selects (r : OpcodeRow) (op : Word) : Bool := op &&& r.mask == r.matchBits

/-- Rows 1 to 12 of 30_encoding.md R75. -/
def opcodeRowsControl : List OpcodeRow :=
  [⟨"CLS", .fixed, 0xFFFF, 0x00E0⟩, ⟨"RET", .fixed, 0xFFFF, 0x00EE⟩, ⟨"JP_nnn", .nnn, 0xF000, 0x1000⟩,
   ⟨"CALL_nnn", .nnn, 0xF000, 0x2000⟩, ⟨"SE_Vx__kk", .xkk, 0xF000, 0x3000⟩, ⟨"SNE_Vx__kk", .xkk, 0xF000, 0x4000⟩,
   ⟨"SE_Vx__Vy", .xy, 0xF00F, 0x5000⟩, ⟨"LD_Vx__kk", .xkk, 0xF000, 0x6000⟩, ⟨"ADD_Vx__kk", .xkk, 0xF000, 0x7000⟩,
   ⟨"LD_Vx__Vy", .xy, 0xF00F, 0x8000⟩, ⟨"OR_Vx__Vy", .xy, 0xF00F, 0x8001⟩, ⟨"AND_Vx__Vy", .xy, 0xF00F, 0x8002⟩]

/-- Rows 13 to 23 of 30_encoding.md R75. -/
def opcodeRowsArithmetic : List OpcodeRow :=
  [⟨"XOR_Vx__Vy", .xy, 0xF00F, 0x8003⟩, ⟨"ADD_Vx__Vy", .xy, 0xF00F, 0x8004⟩, ⟨"SUB_Vx__Vy", .xy, 0xF00F, 0x8005⟩,
   ⟨"SHR_Vx", .xy, 0xF00F, 0x8006⟩, ⟨"SUBN_Vx__Vy", .xy, 0xF00F, 0x8007⟩, ⟨"SHL_Vx", .xy, 0xF00F, 0x800E⟩,
   ⟨"SNE_Vx__Vy", .xy, 0xF00F, 0x9000⟩, ⟨"LD_I__nnn", .nnn, 0xF000, 0xA000⟩, ⟨"JP_V0__nnn", .nnn, 0xF000, 0xB000⟩,
   ⟨"RND_Vx__kk", .xkk, 0xF000, 0xC000⟩, ⟨"DRW_Vx__Vy__n", .xyn, 0xF000, 0xD000⟩]

/-- Rows 24 to 34 of 30_encoding.md R75. -/
def opcodeRowsDevices : List OpcodeRow :=
  [⟨"SKP_Vx", .x, 0xF0FF, 0xE09E⟩, ⟨"SKNP_Vx", .x, 0xF0FF, 0xE0A1⟩, ⟨"LD_Vx__DT", .x, 0xF0FF, 0xF007⟩,
   ⟨"LD_Vx__K", .x, 0xF0FF, 0xF00A⟩, ⟨"LD_DT__Vx", .x, 0xF0FF, 0xF015⟩, ⟨"LD_ST__Vx", .x, 0xF0FF, 0xF018⟩,
   ⟨"ADD_I__Vx", .x, 0xF0FF, 0xF01E⟩, ⟨"LD_F__Vx", .x, 0xF0FF, 0xF029⟩, ⟨"LD_B__Vx", .x, 0xF0FF, 0xF033⟩,
   ⟨"LD__I___Vx", .x, 0xF0FF, 0xF055⟩, ⟨"LD_Vx___I", .x, 0xF0FF, 0xF065⟩]

/-- The opcode map of 30_encoding.md R75, row by row, with the mnemonics of spec/opcode_table.json. The decoder does
not use it: it is the spec's table beside the decoder, so that the two can be held against each other. -/
def opcodeTable : List OpcodeRow := opcodeRowsControl ++ opcodeRowsArithmetic ++ opcodeRowsDevices

/-- The mnemonic of an instruction in spec/opcode_table.json. -/
def Instr.mnemonic : Instr → String
  | .cls => "CLS"
  | .ret => "RET"
  | .jp _ => "JP_nnn"
  | .call _ => "CALL_nnn"
  | .seImm _ _ => "SE_Vx__kk"
  | .sneImm _ _ => "SNE_Vx__kk"
  | .seReg _ _ => "SE_Vx__Vy"
  | .ldImm _ _ => "LD_Vx__kk"
  | .addImm _ _ => "ADD_Vx__kk"
  | .ldReg _ _ => "LD_Vx__Vy"
  | .orReg _ _ => "OR_Vx__Vy"
  | .andReg _ _ => "AND_Vx__Vy"
  | .xorReg _ _ => "XOR_Vx__Vy"
  | .addReg _ _ => "ADD_Vx__Vy"
  | .subReg _ _ => "SUB_Vx__Vy"
  | .shr _ _ => "SHR_Vx"
  | .subnReg _ _ => "SUBN_Vx__Vy"
  | .shl _ _ => "SHL_Vx"
  | .sneReg _ _ => "SNE_Vx__Vy"
  | .ldI _ => "LD_I__nnn"
  | .jpV0 _ => "JP_V0__nnn"
  | .rnd _ _ => "RND_Vx__kk"
  | .drw _ _ _ => "DRW_Vx__Vy__n"
  | .skp _ => "SKP_Vx"
  | .sknp _ => "SKNP_Vx"
  | .ldFromDT _ => "LD_Vx__DT"
  | .ldKey _ => "LD_Vx__K"
  | .ldDT _ => "LD_DT__Vx"
  | .ldST _ => "LD_ST__Vx"
  | .addI _ => "ADD_I__Vx"
  | .ldFont _ => "LD_F__Vx"
  | .ldBcd _ => "LD_B__Vx"
  | .storeRegs _ => "LD__I___Vx"
  | .loadRegs _ => "LD_Vx___I"

/-- The word a row and operands spell, on numbers: `match | (x << 8) | (y << 4) | n`, and so on for each format
(30_encoding.md R83). -/
def OpcodeRow.assemble (r : OpcodeRow) (o : Operands) : Word :=
  match r.format with
  | .fixed => r.matchBits
  | .nnn => r.matchBits ||| BitVec.ofNat 16 o.nnn
  | .xkk => r.matchBits ||| BitVec.ofNat 16 o.x <<< 8 ||| BitVec.ofNat 16 o.kk
  | .xyn => r.matchBits ||| BitVec.ofNat 16 o.x <<< 8 ||| BitVec.ofNat 16 o.y <<< 4 ||| BitVec.ofNat 16 o.n
  | .xy => r.matchBits ||| BitVec.ofNat 16 o.x <<< 8 ||| BitVec.ofNat 16 o.y <<< 4
  | .x => r.matchBits ||| BitVec.ofNat 16 o.x <<< 8

end Sys2Proof
end

