-- ==== Sys2Proof/Config.lean ====
section
/-! DEFINITION. What is fixed for the life of one machine: the parameters of 00_scope.md R5, and the free value that
stands for the answers of the random source. -/

namespace Sys2Proof

/-- `KEY_INDEX_POLICY` (45_keypad_timers.md R186): what SKP and SKNP do with a key number above 15. -/
inductive KeyIndexPolicy where
  /-- raise `KeyIndexError` (the spec's default) -/
  | fault
  /-- go on with the number modulo 16 -/
  | lowNibble
  /-- treat the key as not pressed -/
  | notPressed
  deriving DecidableEq, Repr

/-- The parameters that may differ from one machine to another (00_scope.md R5, 10_state.md R34). -/
structure Config where
  /-- `STRICT` (60_exceptions.md R194) -/
  strict : Bool
  /-- `KEY_INDEX_POLICY` (45_keypad_timers.md R186) -/
  keyIndexPolicy : KeyIndexPolicy
  /-- `FONT[0..79]` (10_state.md R33) -/
  font : Vector Byte 80
  deriving DecidableEq, Repr

/-- `MEM_SIZE` (00_scope.md R5). -/
abbrev Config.memSize : Nat := 4096

/-- `PROG_BASE`, where `load` puts a program (00_scope.md R5, 20_memory.md R64). -/
abbrev Config.progBase : Nat := 0x200

/-- `FONT_BASE` (00_scope.md R5). -/
abbrev Config.fontBase : Nat := 0x050

/-- `STACK_DEPTH` (00_scope.md R5). -/
abbrev Config.stackDepth : Nat := 16

/-- `FB_W` (00_scope.md R5). -/
abbrev Config.fbWidth : Nat := 64

/-- `FB_H` (00_scope.md R5). -/
abbrev Config.fbHeight : Nat := 32

/-- FREE VALUE (log 2): the answer of the random source to the n-th draw the host has not answered explicitly.
A byte, or `none` for a failure of the source; under no law (42_alu.md R141, 93_implementation_defined.md U4). It has
no body, so nothing can be proved of it. -/
opaque Config.rngAnswer : Nat → Option Byte

end Sys2Proof
end

