-- ==== Sys2Proof/Machine/Font.lean ====
section
/-! DEFINITION. The values the parameters of 00_scope.md R5 have unless the host chose others: the font of
10_state.md R33 and the defaults. -/

namespace Sys2Proof

/-- The sixteen glyphs of 10_state.md R33, digit 0 first, five rows each.
PRESUMED (the spec: from general knowledge, not in source), unsafe: log 4. -/
def Config.glyphs : List (List Byte) :=
  [[0xF0, 0x90, 0x90, 0x90, 0xF0], [0x20, 0x60, 0x20, 0x20, 0x70]] ++
  [[0xF0, 0x10, 0xF0, 0x80, 0xF0], [0xF0, 0x10, 0xF0, 0x10, 0xF0]] ++
  [[0x90, 0x90, 0xF0, 0x10, 0x10], [0xF0, 0x80, 0xF0, 0x10, 0xF0]] ++
  [[0xF0, 0x80, 0xF0, 0x90, 0xF0], [0xF0, 0x10, 0x20, 0x40, 0x40]] ++
  [[0xF0, 0x90, 0xF0, 0x90, 0xF0], [0xF0, 0x90, 0xF0, 0x10, 0xF0]] ++
  [[0xF0, 0x90, 0xF0, 0x90, 0x90], [0xE0, 0x90, 0xE0, 0x90, 0xE0]] ++
  [[0xF0, 0x80, 0x80, 0x80, 0xF0], [0xE0, 0x90, 0x90, 0x90, 0xE0]] ++
  [[0xF0, 0x80, 0xF0, 0x80, 0xF0], [0xF0, 0x80, 0xF0, 0x80, 0x80]]

/-- `FONT`'s default value (10_state.md R33). -/
def Config.conventionalFont : Vector Byte 80 :=
  ⟨Config.glyphs.flatten.toArray, rfl⟩

/-- The defaults of 00_scope.md R5: permissive, policy `fault`, the conventional font (log 3, log 4). -/
def Config.default : Config :=
  { strict := false, keyIndexPolicy := .fault, font := Config.conventionalFont }

end Sys2Proof
end

