-- ==== Sys2Proof/Machine/State.lean ====
section
/-! DEFINITION. The state of the machine (spec/10_state.md), the reasons a step can stop, and the state after reset. -/

namespace Sys2Proof.Machine

/-- The fatal conditions of 60_exceptions.md R190. Each is raised by the instruction named, is reported to the host,
records no value, and leaves the instruction without effect. -/
inductive Fault where
  /-- CALL with `SP = 16` (R191). The spec's own condition. Safe: beyond it, only for `SP` above 16, which no run
  reaches (log 16). -/
  | stackOverflow
  /-- RET with `SP = 0` (R192). The spec's own condition. Safe. -/
  | stackUnderflow
  /-- The fetch, DRW, LD B, LD [I],Vx, LD Vx,[I] with an address of 4096 or more (R193). The spec's own condition.
  Safe. -/
  | memoryAccessError
  /-- An unmatched word when `STRICT` is true (R194). The spec's own condition. Safe. -/
  | unknownOpcode
  /-- SKP, SKNP with `V[x] > 15` under policy `fault` (R195). The spec's own condition. Safe. -/
  | keyIndexError
  deriving DecidableEq, Repr

/-- Why an instruction has no meaning. No arm of `exec` raises one: every instruction has its meaning. -/
inductive Refusal where
  /-- The instruction is not modelled; raised by an arm of `exec`, by name. Safe. -/
  | notModelled (mnemonic : String)
  deriving DecidableEq, Repr

/-- `MODE` (10_state.md R29). -/
inductive Mode where
  | running
  | awaitingKey (target : Reg)
  deriving DecidableEq, Repr

/-- `FB[y][x]`: 32 rows of 64 cells, `true` for 1 (10_state.md R30). -/
abbrev Framebuffer := Vector (Vector Bool 64) 32

/-- `MEM` as the bytes that differ from the reset contents: address and byte, addresses strictly rising (log 9). -/
abbrev Memory := List Host.Cell

/-- Everything the spec gives the machine (10_state.md R20 to R32), its parameters (R34), and two fields of the
model's own for the tick input `rng`. -/
structure State where
  /-- `V[0]` to `V[15]` (R20) -/
  v : Vector Byte 16
  /-- `I` (R22) -/
  i : Word
  /-- `PC` (R23) -/
  pc : Word
  /-- `STACK[0]` to `STACK[15]` (R24) -/
  stack : Vector Word 16
  /-- `SP` (R25) -/
  sp : Byte
  /-- `DT` (R26) -/
  dt : Byte
  /-- `ST` (R27) -/
  st : Byte
  /-- `KEYS[0]` to `KEYS[15]` (R28) -/
  keys : Vector Bool 16
  /-- `MODE` (R29) -/
  mode : Mode
  /-- `FB` (R30) -/
  fb : Framebuffer
  /-- `DIRTY` (R31) -/
  dirty : Bool
  /-- `MEM` (R32) -/
  mem : Memory
  /-- The parameters, constant for the life of the machine (R34; log 3). -/
  config : Config
  /-- MODEL'S OWN (log 2): answers of the random source already supplied for the coming draws, first one first. -/
  rngIn : List (Option Byte)
  /-- MODEL'S OWN (log 2): how many draws the free value `Config.rngAnswer` has answered. -/
  rngDraws : Nat
  deriving DecidableEq, Repr

/-- `construct()` (70_reset_and_hazards.md R220), for a machine with parameters `c`: the table of 10_state.md R37.
Memory lists nothing, so that every byte reads as its reset contents. -/
def State.construct (c : Config) : State :=
  { v := Vector.replicate 16 0
    i := 0
    pc := 0x200
    stack := Vector.replicate 16 0
    sp := 0
    dt := 0
    st := 0
    keys := Vector.replicate 16 false
    mode := .running
    fb := Vector.replicate 32 (Vector.replicate 64 false)
    dirty := false
    mem := []
    config := c
    rngIn := []
    rngDraws := 0 }

/-- The machine right after reset, with the default parameters of 00_scope.md R5. -/
def State.reset : State := State.construct Config.default

end Sys2Proof.Machine
end

