-- ==== Sys2Proof/Machine/Ops.lean ====
section
/-! DEFINITION. The named operations over the state that every meaning is written with: registers, memory, call stack,
framebuffer, the program-counter directives, raising a fatal condition, the answers of the random source. -/

namespace Sys2Proof.Machine

/-- What a step or a meaning answers. -/
abbrev Result := Host.Outcome State Fault Refusal

/-! ## Registers -/

/-- `V[x]` (00_scope.md R9). -/
def State.readReg (s : State) (x : Reg) : Byte := s.v[x.toNat]'x.isLt

/-- `V[x] <- b` (00_scope.md R9). -/
def State.writeReg (s : State) (x : Reg) (b : Byte) : State := { s with v := s.v.set x.toNat b x.isLt }

/-- `V[0]` to `V[x]`, the lowest first (43_index_memory.md R154). -/
def State.readRegs (s : State) (x : Reg) : List Byte :=
  (List.range (x.toNat + 1)).map fun j => s.readReg (BitVec.ofNat 4 j)

/-- `V[j] <- b` for the bytes of a list, from register `j` upwards (43_index_memory.md R155). -/
def State.writeRegs (s : State) (j : Nat) : List Byte → State
  | [] => s
  | b :: rest => (s.writeReg (BitVec.ofNat 4 j) b).writeRegs (j + 1) rest

/-- `I <- a`. -/
def State.writeI (s : State) (a : Word) : State := { s with i := a }

/-- `DT <- b`. -/
def State.writeDT (s : State) (b : Byte) : State := { s with dt := b }

/-- `ST <- b`. -/
def State.writeST (s : State) (b : Byte) : State := { s with st := b }

/-- `MODE <- m`. -/
def State.writeMode (s : State) (m : Mode) : State := { s with mode := m }

/-! ## Memory -/

/-- What an address reads as while the memory lists nothing for it: the reset contents (10_state.md R32, R37). -/
def unlistedByte (font : Vector Byte 80) (a : Nat) : Byte :=
  if h : Config.fontBase ≤ a ∧ a < Config.fontBase + 80 then font[a - Config.fontBase]'(by omega) else 0

/-- The byte listed for an address. -/
def Memory.lookup (a : Nat) : Memory → Option Byte
  | [] => none
  | (b, w) :: rest => if b = a then some w else Memory.lookup a rest

/-- The memory with nothing listed for an address. -/
def Memory.erase (a : Nat) : Memory → Memory
  | [] => []
  | (b, w) :: rest => if b = a then Memory.erase a rest else (b, w) :: Memory.erase a rest

/-- The memory with a byte listed for an address that it does not list, at its place in the order. -/
def Memory.insert (a : Nat) (v : Byte) : Memory → Memory
  | [] => [(a, v)]
  | (b, w) :: rest => if a < b then (a, v) :: (b, w) :: rest else (b, w) :: Memory.insert a v rest

/-- The memory after a byte is stored: listed only if it differs from the reset contents. -/
def Memory.store (font : Vector Byte 80) (m : Memory) (a : Nat) (v : Byte) : Memory :=
  if v = unlistedByte font a then Memory.erase a m else Memory.insert a v (Memory.erase a m)

/-- The canonical form: addresses strictly rising. -/
def Memory.rising : Memory → Bool
  | [] => true
  | (a, _) :: rest => rest.all (fun c => decide (a < c.1)) && Memory.rising rest

/-- The canonical form: addresses strictly rising, all inside the address space, no entry equal to what an unlisted
address reads as. -/
def Memory.wf (font : Vector Byte 80) (m : Memory) : Bool :=
  Memory.rising m && m.all (fun c => decide (c.1 < Config.memSize) && !(c.2 == unlistedByte font c.1))

/-- `MEM[a]`, for an address inside the address space (00_scope.md R9). -/
def State.byteAt (s : State) (a : Nat) : Byte := (Memory.lookup a s.mem).getD (unlistedByte s.config.font a)

/-- `MEM[a] <- b`, for an address inside the address space (00_scope.md R9). -/
def State.setByte (s : State) (a : Nat) (b : Byte) : State :=
  { s with mem := Memory.store s.config.font s.mem a b }

/-- The bytes of a list stored at ascending addresses from `a`, every address inside the address space. -/
def State.setBytes (s : State) (a : Nat) : List Byte → State
  | [] => s
  | b :: rest => (s.setByte a b).setBytes (a + 1) rest

/-- Whether every address of an access of `len` bytes at `a` exists: the check on the largest one
(20_memory.md R55). An access of no byte has none. -/
def rangeOk (a len : Nat) : Bool := len == 0 || decide (a + len - 1 < Config.memSize)

/-- `MemRead` of `len` bytes at `a`, all checked before any is read (20_memory.md R52, R55; the order of checks is
the spec's own decision: log 8). -/
def State.memRead (s : State) (a len : Nat) : Except Fault (List Byte) :=
  if rangeOk a len then .ok ((List.range len).map fun k => s.byteAt (a + k)) else .error .memoryAccessError

/-- `MemWrite` of the bytes of a list at `a`, all checked before any is written (20_memory.md R53, R55; log 8). -/
def State.memWrite (s : State) (a : Nat) (bytes : List Byte) : Except Fault State :=
  if rangeOk a bytes.length then .ok (s.setBytes a bytes) else .error .memoryAccessError

/-! ## Call stack -/

/-- CALL's push: `STACK[SP] <- ret`, then `SP <- SP + 1`; `StackOverflow` when the stack is full
(41_control_flow.md R112). DEDUCED, safe: a pointer above 16, which no run reaches, is treated as a full stack
(10_state.md R25, "violation is a fatal condition"; log 16). -/
def State.pushReturn (s : State) (ret : Word) : Except Fault State :=
  if h : s.sp.toNat < Config.stackDepth then .ok { s with stack := s.stack.set s.sp.toNat ret h, sp := s.sp + 1#8 }
  else .error .stackOverflow

/-- RET's pop: `SP <- SP - 1` and the address in that slot, which keeps its value; `StackUnderflow` when `SP = 0`
(41_control_flow.md R110). DEDUCED, safe: a pointer above 16, which no run reaches, raises `StackOverflow` (log 16). -/
def State.popReturn (s : State) : Except Fault (Word × State) :=
  if s.sp = 0#8 then .error .stackUnderflow
  else if h : s.sp.toNat - 1 < Config.stackDepth then .ok (s.stack[s.sp.toNat - 1], { s with sp := s.sp - 1#8 })
  else .error .stackOverflow

/-! ## Framebuffer -/

/-- `FB[y][x]` (10_state.md R30); no cell, so not lit, outside the grid. -/
def fbPixel (fb : Framebuffer) (y x : Nat) : Bool :=
  if h : y < Config.fbHeight ∧ x < Config.fbWidth then (fb[y]'h.1)[x]'h.2 else false

/-- `FB[y][x] <- p`; outside the grid there is nothing to write. -/
def fbSetPixel (fb : Framebuffer) (y x : Nat) (p : Bool) : Framebuffer :=
  if h : y < Config.fbHeight ∧ x < Config.fbWidth then fb.set y ((fb[y]'h.1).set x p h.2) h.1 else fb

/-- Every cell 0 (44_display.md R170, `clear()`). -/
def fbClear : Framebuffer := Vector.replicate 32 (Vector.replicate 64 false)

/-- One sprite bit onto one cell: a column of 64 or more is dropped, a clear bit changes nothing, a set bit erases a
lit cell and records the collision or lights a dark one (44_display.md R171, R172). The pair is the framebuffer and
whether a collision has happened. -/
def plotBit (ry cx : Nat) (bit : Bool) (c : Framebuffer × Bool) : Framebuffer × Bool :=
  if cx ≥ Config.fbWidth then c
  else if bit then
    if fbPixel c.1 ry cx then (fbSetPixel c.1 ry cx false, true) else (fbSetPixel c.1 ry cx true, c.2)
  else c

/-- One sprite row: the eight bits of its byte, the most significant first (44_display.md R171). -/
def plotRow (ry ox : Nat) (byte : Byte) (c : Framebuffer × Bool) : Framebuffer × Bool :=
  (List.range 8).foldl (fun c b => plotBit ry (ox + b) (byte.getLsbD (7 - b)) c) c

/-- The sprite rows from row `r` on: a row at 32 or more drops itself and all later ones (44_display.md R171). -/
def plotRows (oy ox : Nat) : Nat → List Byte → Framebuffer × Bool → Framebuffer × Bool
  | _, [], c => c
  | r, byte :: rest, c => if oy + r ≥ Config.fbHeight then c else plotRows oy ox (r + 1) rest (plotRow (oy + r) ox byte c)

/-- `FB` replaced and `DIRTY <- true` (10_state.md R31: CLS and DRW set it whatever the pixels). -/
def State.present (s : State) (fb : Framebuffer) : State := { s with fb := fb, dirty := true }

/-! ## Directives, completion, fatal conditions -/

/-- The three program-counter directives (40_tick_engine.md R96). -/
inductive Directive where
  | next
  | skip
  | jump (a : Word)
  deriving DecidableEq, Repr

/-- The directive applied to `PC`, on 16 bits, unchecked (40_tick_engine.md R96). -/
def State.applyDirective (s : State) : Directive → State
  | .next => { s with pc := s.pc + 2#16 }
  | .skip => { s with pc := s.pc + 4#16 }
  | .jump a => { s with pc := a }

/-- `Skip` if the condition holds, else `Next` (41_control_flow.md R113). -/
def skipIf (c : Bool) : Directive := if c then .skip else .next

/-- An instruction that completes: all its writes are in `s`, its directive is applied last (40_tick_engine.md R96). -/
def complete (d : Directive) (s : State) : Result := .next (s.applyDirective d)

/-- TAKING AN EXCEPTION: `raise f`. There is no handler in the machine, no saved register, no vector, no mode change;
the tick ends and reports `f` to the host, the instruction has written nothing and `PC` still addresses it
(60_exceptions.md R200). So the run ends in a fault outcome (R201: "A model should treat a reported fault as a fault
outcome of the run"); the state the host finds after it, the one the raising instruction started from, is part of the
report of `tick` (40_tick_engine.md R98; log 1). RETURN from it: none exists and nothing is latched (R201). -/
def raiseFatal (f : Fault) : Result := .fault f

/-- A meaning that goes on with what a checked operation answers, or raises the condition the check found. -/
def orRaise {α : Type} (r : Except Fault α) (k : α → Result) : Result :=
  match r with
  | .ok a => k a
  | .error f => raiseFatal f

/-! ## The random source -/

/-- The answer of the random source to the coming draw: what the host has supplied, else a free value
(42_alu.md R141; log 2). -/
def State.rngAnswer (s : State) : Option Byte :=
  match s.rngIn with
  | a :: _ => a
  | [] => Config.rngAnswer s.rngDraws

/-- The state after one draw: its answer is used up (42_alu.md R141: consumed only when the instruction is RND). -/
def State.drawDone (s : State) : State :=
  match s.rngIn with
  | _ :: rest => { s with rngIn := rest }
  | [] => { s with rngDraws := s.rngDraws + 1 }

/-- The answers of the random source for the coming draws, as the host supplies them (00_scope.md R7; log 2). -/
def State.withRng (s : State) (answers : List (Option Byte)) : State := { s with rngIn := answers }

/-- The byte of a draw: a failed source degrades to 0 (42_alu.md R141, 60_exceptions.md R197). -/
def drawByte (answer : Option Byte) : Byte := answer.getD 0

end Sys2Proof.Machine
end

