-- ==== Sys2Proof/Machine/Operands.lean ====
section
/-! DEFINITION. Every operand form the spec gives: zero-extended immediates, effective addresses, the font address,
decimal digits, sprite origins, key numbers. -/

namespace Sys2Proof.Machine

/-- `zext_16(nnn)` (30_encoding.md R73). -/
def zextAddr (nnn : Addr12) : Word := nnn.setWidth 16

/-- `zext_16(a)` of a byte (00_scope.md R9). -/
def zextByte (a : Byte) : Word := a.setWidth 16

/-- `I` as the base of a memory access: a natural number, so that `I + k` is never wrapped (20_memory.md R54). -/
def State.indexBase (s : State) : Nat := s.i.toNat

/-- The address of the glyph of a byte: `V[x] * 5 + FONT_BASE`, the whole byte used (43_index_memory.md R152; the
spec's own decision D15: log 7). -/
def fontAddress (a : Byte) : Word := zextByte a * 5 + BitVec.ofNat 16 Config.fontBase

/-- Hundreds, tens and ones (43_index_memory.md R153). -/
def bcdDigits (a : Byte) : List Byte :=
  [BitVec.ofNat 8 (a.toNat / 100), BitVec.ofNat 8 (a.toNat / 10 % 10), BitVec.ofNat 8 (a.toNat % 10)]

/-- The column of a sprite's origin: `vx mod 64` (44_display.md R171). -/
def originX (vx : Byte) : Nat := vx.toNat % Config.fbWidth

/-- The row of a sprite's origin: `vy mod 32` (44_display.md R171). -/
def originY (vy : Byte) : Nat := vy.toNat % Config.fbHeight

/-- `KEYS[k]` (10_state.md R28). -/
def State.keyDown (s : State) (k : Nibble) : Bool := s.keys[k.toNat]'k.isLt

/-- Whether the key numbered by a register's value is pressed; a value above 15 falls under `KEY_INDEX_POLICY`
(45_keypad_timers.md R180, R181, R186; log 3). -/
def State.keyLevel (s : State) (a : Byte) : Except Fault Bool :=
  if a.toNat ≤ 15 then .ok (s.keyDown (a.setWidth 4))
  else
    match s.config.keyIndexPolicy with
    | .fault => .error .keyIndexError
    | .lowNibble => .ok (s.keyDown (a.setWidth 4))
    | .notPressed => .ok false

/-- The least pressed key (40_tick_engine.md R92: indices 0 to 15 in ascending order). -/
def State.lowestKey (s : State) : Option Nibble :=
  ((List.range 16).map (BitVec.ofNat 4)).find? s.keyDown

end Sys2Proof.Machine
end

