-- ==== Sys2Proof/Machine/Flags.lean ====
section
/-! DEFINITION. Every value the spec computes for `VF` (42_alu.md R143). A flag is exactly 0 or 1 (10_state.md R21). -/

namespace Sys2Proof.Machine

/-- A condition as the byte stored in `VF` (10_state.md R21). -/
def flagByte (c : Bool) : Byte := if c then 1 else 0

/-- Carry out of an 8-bit sum: 1 if it exceeds 255 (42_alu.md R136). -/
def carryFlag (a b : Byte) : Byte := flagByte (decide (255 < a.toNat + b.toNat))

/-- No borrow in `a - b`: 1 if `a >= b` (42_alu.md R137, R139). -/
def notBorrowFlag (a b : Byte) : Byte := flagByte (decide (b.toNat ≤ a.toNat))

/-- The bit a right shift drops: `a[0]` (42_alu.md R138). -/
def lowBitFlag (a : Byte) : Byte := flagByte (a.getLsbD 0)

/-- The bit a left shift drops: `a[7]` (42_alu.md R140). -/
def highBitFlag (a : Byte) : Byte := flagByte (a.getLsbD 7)

/-- The collision flag of DRW (44_display.md R171, R172). -/
def collisionFlag (hit : Bool) : Byte := flagByte hit

end Sys2Proof.Machine
end

