-- ==== Sys2Proof/Machine/Alu.lean ====
section
/-! DEFINITION. The meanings of the register loads, arithmetic, logic, shifts and RND (spec/42_alu.md). Operands are
read before any write and the writes apply in the rule's order (00_scope.md R10; the spec's own decision D2: log 6). -/

namespace Sys2Proof.Machine

/-- LD Vx,kk (42_alu.md R130). -/
def execLdImm (x : Reg) (kk : Byte) (s : State) : Result :=
  complete .next (s.writeReg x kk)

/-- ADD Vx,kk (42_alu.md R131): no flag. -/
def execAddImm (x : Reg) (kk : Byte) (s : State) : Result :=
  complete .next (s.writeReg x (s.readReg x + kk))

/-- LD Vx,Vy (42_alu.md R132). -/
def execLdReg (x y : Reg) (s : State) : Result :=
  complete .next (s.writeReg x (s.readReg y))

/-- OR Vx,Vy (42_alu.md R133): no flag (log 7). -/
def execOrReg (x y : Reg) (s : State) : Result :=
  complete .next (s.writeReg x (s.readReg x ||| s.readReg y))

/-- AND Vx,Vy (42_alu.md R134): no flag (log 7). -/
def execAndReg (x y : Reg) (s : State) : Result :=
  complete .next (s.writeReg x (s.readReg x &&& s.readReg y))

/-- XOR Vx,Vy (42_alu.md R135): no flag (log 7). -/
def execXorReg (x y : Reg) (s : State) : Result :=
  complete .next (s.writeReg x (s.readReg x ^^^ s.readReg y))

/-- ADD Vx,Vy (42_alu.md R136): the sum, then the carry, so that with `x = F` the carry stays. -/
def execAddReg (x y : Reg) (s : State) : Result :=
  let a := s.readReg x
  let b := s.readReg y
  complete .next ((s.writeReg x (a + b)).writeReg .vf (carryFlag a b))

/-- SUB Vx,Vy (42_alu.md R137): the flag, then the difference, so that with `x = F` the difference stays (log 6). -/
def execSubReg (x y : Reg) (s : State) : Result :=
  let a := s.readReg x
  let b := s.readReg y
  complete .next ((s.writeReg .vf (notBorrowFlag a b)).writeReg x (a - b))

/-- SHR Vx (42_alu.md R138): the dropped bit, then the shifted value; `y` is ignored (log 6, log 7). -/
def execShr (x _y : Reg) (s : State) : Result :=
  let a := s.readReg x
  complete .next ((s.writeReg .vf (lowBitFlag a)).writeReg x (a >>> 1))

/-- SUBN Vx,Vy (42_alu.md R139): the flag, then the difference `V[y] - V[x]` (log 6). -/
def execSubnReg (x y : Reg) (s : State) : Result :=
  let a := s.readReg x
  let b := s.readReg y
  complete .next ((s.writeReg .vf (notBorrowFlag b a)).writeReg x (b - a))

/-- SHL Vx (42_alu.md R140): the dropped bit, then the shifted value; `y` is ignored (log 6, log 7). -/
def execShl (x _y : Reg) (s : State) : Result :=
  let a := s.readReg x
  complete .next ((s.writeReg .vf (highBitFlag a)).writeReg x (a <<< 1))

/-- RND Vx,kk (42_alu.md R141): the drawn byte, 0 for a failed draw, masked by `kk` (log 2). -/
def execRnd (x : Reg) (kk : Byte) (s : State) : Result :=
  complete .next (s.drawDone.writeReg x (drawByte s.rngAnswer &&& kk))

end Sys2Proof.Machine
end

