-- ==== Sys2Proof/Machine/ControlFlow.lean ====
section
/-! DEFINITION. The meanings of RET, JP, CALL, SE, SNE and JP V0 (spec/41_control_flow.md). In each `s` is the state
after the tick's dirty reset and timer decrement, with `PC` the address of the instruction itself. -/

namespace Sys2Proof.Machine

/-- RET (41_control_flow.md R110). -/
def execRet (s : State) : Result :=
  orRaise s.popReturn fun (a, t) => complete (.jump a) t

/-- JP nnn (41_control_flow.md R111). -/
def execJp (nnn : Addr12) (s : State) : Result :=
  complete (.jump (zextAddr nnn)) s

/-- CALL nnn (41_control_flow.md R112). -/
def execCall (nnn : Addr12) (s : State) : Result :=
  orRaise (s.pushReturn (s.pc + 2#16)) fun t => complete (.jump (zextAddr nnn)) t

/-- SE Vx,kk (41_control_flow.md R113). -/
def execSeImm (x : Reg) (kk : Byte) (s : State) : Result :=
  complete (skipIf (s.readReg x == kk)) s

/-- SNE Vx,kk (41_control_flow.md R114). -/
def execSneImm (x : Reg) (kk : Byte) (s : State) : Result :=
  complete (skipIf (s.readReg x != kk)) s

/-- SE Vx,Vy (41_control_flow.md R115). -/
def execSeReg (x y : Reg) (s : State) : Result :=
  complete (skipIf (s.readReg x == s.readReg y)) s

/-- SNE Vx,Vy (41_control_flow.md R116). -/
def execSneReg (x y : Reg) (s : State) : Result :=
  complete (skipIf (s.readReg x != s.readReg y)) s

/-- JP V0,nnn (41_control_flow.md R117): the offset register is always `V[0]`. -/
def execJpV0 (nnn : Addr12) (s : State) : Result :=
  complete (.jump (zextAddr nnn + zextByte (s.readReg .v0))) s

end Sys2Proof.Machine
end

