-- ==== Sys2Proof/Machine/Display.lean ====
section
/-! DEFINITION. The meanings of CLS and DRW (spec/44_display.md). -/

namespace Sys2Proof.Machine

/-- CLS (44_display.md R170). -/
def execCls (s : State) : Result :=
  complete .next (s.present fbClear)

/-- DRW Vx,Vy,n (44_display.md R171): the origin from the registers as they stand before the instruction (log 6), all
`n` bytes read and checked first (log 8), then the rows drawn, `V[F]` the collision flag, `DIRTY` set. -/
def execDrw (x y : Reg) (n : Nibble) (s : State) : Result :=
  let oy := originY (s.readReg y)
  let ox := originX (s.readReg x)
  orRaise (s.memRead s.indexBase n.toNat) fun rows =>
    let drawn := plotRows oy ox 0 rows (s.fb, false)
    complete .next ((s.present drawn.1).writeReg .vf (collisionFlag drawn.2))

end Sys2Proof.Machine
end

