-- ==== Sys2Proof/Machine/IndexMemory.lean ====
section
/-! DEFINITION. The meanings of LD I, ADD I, LD F, LD B, LD [I] and LD Vx,[I] (spec/43_index_memory.md). None of them
changes `I` after an access (the spec's own decision D15: log 7). -/

namespace Sys2Proof.Machine

/-- LD I,nnn (43_index_memory.md R150). -/
def execLdI (nnn : Addr12) (s : State) : Result :=
  complete .next (s.writeI (zextAddr nnn))

/-- ADD I,Vx (43_index_memory.md R151): 16 bits, no flag, no check (wrap: log 11). -/
def execAddI (x : Reg) (s : State) : Result :=
  complete .next (s.writeI (s.i + zextByte (s.readReg x)))

/-- LD F,Vx (43_index_memory.md R152). -/
def execLdFont (x : Reg) (s : State) : Result :=
  complete .next (s.writeI (fontAddress (s.readReg x)))

/-- LD B,Vx (43_index_memory.md R153). -/
def execLdBcd (x : Reg) (s : State) : Result :=
  orRaise (s.memWrite s.indexBase (bcdDigits (s.readReg x))) fun t => complete .next t

/-- LD [I],Vx (43_index_memory.md R154). -/
def execStoreRegs (x : Reg) (s : State) : Result :=
  orRaise (s.memWrite s.indexBase (s.readRegs x)) fun t => complete .next t

/-- LD Vx,[I] (43_index_memory.md R155). -/
def execLoadRegs (x : Reg) (s : State) : Result :=
  orRaise (s.memRead s.indexBase (x.toNat + 1)) fun bytes => complete .next (s.writeRegs 0 bytes)

end Sys2Proof.Machine
end

