-- ==== Sys2Proof/Machine/KeypadTimers.lean ====
section
/-! DEFINITION. The meanings of SKP, SKNP, LD Vx,DT, LD Vx,K, LD DT,Vx and LD ST,Vx (spec/45_keypad_timers.md). -/

namespace Sys2Proof.Machine

/-- SKP Vx (45_keypad_timers.md R180, R186). -/
def execSkp (x : Reg) (s : State) : Result :=
  orRaise (s.keyLevel (s.readReg x)) fun down => complete (skipIf down) s

/-- SKNP Vx (45_keypad_timers.md R181, R186). -/
def execSknp (x : Reg) (s : State) : Result :=
  orRaise (s.keyLevel (s.readReg x)) fun down => complete (skipIf (!down)) s

/-- LD Vx,DT (45_keypad_timers.md R182): `DT` after this tick's decrement. -/
def execLdFromDT (x : Reg) (s : State) : Result :=
  complete .next (s.writeReg x s.dt)

/-- LD Vx,K (45_keypad_timers.md R183): the wait starts; the following ticks end it (40_tick_engine.md R92). -/
def execLdKey (x : Reg) (s : State) : Result :=
  complete .next (s.writeMode (.awaitingKey x))

/-- LD DT,Vx (45_keypad_timers.md R184). -/
def execLdDT (x : Reg) (s : State) : Result :=
  complete .next (s.writeDT (s.readReg x))

/-- LD ST,Vx (45_keypad_timers.md R185). -/
def execLdST (x : Reg) (s : State) : Result :=
  complete .next (s.writeST (s.readReg x))

end Sys2Proof.Machine
end

