-- ==== Sys2Proof/Machine/Tick.lean ====
section
/-! DEFINITION. The parts of one tick (spec/40_tick_engine.md): dirty reset, timer decrement, fetch, decode and
dispatch, the unmatched handler, the key-wait branch. -/

namespace Sys2Proof.Machine

/-- `DIRTY <- false`, the first action of every tick (40_tick_engine.md R91). -/
def State.resetDirty (s : State) : State := { s with dirty := false }

/-- A timer one lower, stopping at 0 (40_tick_engine.md R93). -/
def timerDown (t : Byte) : Byte := if t = 0#8 then 0#8 else t - 1#8

/-- Both timers decremented (40_tick_engine.md R93). -/
def State.decrementTimers (s : State) : State := { s with dt := timerDown s.dt, st := timerDown s.st }

/-- What a Running tick does before its fetch (40_tick_engine.md R91, R93). It stands even if the tick then raises a
fatal condition (R98). -/
def State.beginRunning (s : State) : State := s.resetDirty.decrementTimers

/-- `op = MemRead(PC, 2)`, big-endian (40_tick_engine.md R94, 20_memory.md R56; the bound on the fetch is the spec's
own decision D6: log 8). -/
def State.fetch (s : State) : Except Fault Word :=
  if rangeOk s.pc.toNat 2 then .ok (composeOpcode (s.byteAt s.pc.toNat) (s.byteAt (s.pc.toNat + 1)))
  else .error .memoryAccessError

/-- The unmatched handler (40_tick_engine.md R100, 30_encoding.md R77). -/
def execUnmatched (s : State) : Result :=
  if s.config.strict then raiseFatal .unknownOpcode else complete .next s

/-- Decode and dispatch: exactly one handler runs (40_tick_engine.md R95). -/
def execWord (op : Word) (s : State) : Result :=
  match decodeWord op with
  | .ok i => exec i s
  | .error _ => execUnmatched s

/-- A Running tick from the fetch on (40_tick_engine.md R90). -/
def runningTick (s : State) : Result :=
  orRaise s.fetch fun op => execWord op s

/-- A tick in `AwaitingKey(t)`: the least pressed key ends the wait; no fetch, no timer, no `PC`
(40_tick_engine.md R92). -/
def awaitingTick (t : Reg) (s : State) : Result :=
  match s.lowestKey with
  | some k => .next ((s.writeReg t (k.setWidth 8)).writeMode .running)
  | none => .next s

/-- One tick: the branch its mode selects, after what each does first (40_tick_engine.md R90). -/
def tickOutcome (s : State) : Result :=
  match s.mode with
  | .running => runningTick s.beginRunning
  | .awaitingKey t => awaitingTick t s.resetDirty

/-- Where the next fetch reads: `PC`, or `PROG_BASE` when no instruction can be fetched at `PC` (log 14). -/
def State.fetchablePc (s : State) : Word :=
  if s.pc.toNat + 1 < Config.memSize then s.pc else BitVec.ofNat 16 Config.progBase

/-- The bytes of an opcode at the place of the next fetch, the machine in `Running` so that the next tick fetches. -/
def State.placeOpcode (s : State) (op : Word) : State :=
  { s with pc := s.fetchablePc, mode := .running }.setBytes s.fetchablePc.toNat (opcodeBytes op)

end Sys2Proof.Machine
end

