-- ==== Sys2Proof/Machine/Step.lean ====
section
/-! DEFINITION. One step of the machine, which is one `tick` (spec/40_tick_engine.md R90). -/

namespace Sys2Proof.Machine

/-- One tick. A fatal condition ends the run (60_exceptions.md R201; log 1); the outputs of the tick, and the state
the host finds after a fatal condition, are those of `tick` (Machine/HostInterface.lean). -/
def step (s : State) : Host.Outcome State Fault Refusal := tickOutcome s

/-- `s` with an instruction, whose bits are `w` and those above `nbits` 0, where `step` fetches its next instruction.
It stands for the host's load of a program (log 14). -/
def State.withFetchWord (s : State) (nbits w : Nat) : State :=
  s.placeOpcode (BitVec.ofNat 16 (w % 2 ^ nbits))

end Sys2Proof.Machine
end

