-- ==== Sys2Proof/Machine/HostInterface.lean ====
section
/-! DEFINITION. The host's side (00_scope.md R7): `load`, `set_key`, `unset_key`, `tick` with its input and its three
outputs, the views, and one operation after another. -/

namespace Sys2Proof.Machine

/-- `load(bytes)`: from 0x200 on, every byte whose address would reach 4096 dropped (20_memory.md R64). -/
def State.load (s : State) (bytes : List Byte) : State :=
  s.setBytes Config.progBase (bytes.take (Config.memSize - Config.progBase))

/-- `KEYS[i] <- level` for 0 <= i <= 15, else nothing (60_exceptions.md R205). -/
def State.setKeyLevel (s : State) (i : Int) (level : Bool) : State :=
  if h : 0 ≤ i ∧ i ≤ 15 then { s with keys := s.keys.set i.toNat level (by omega) } else s

/-- `set_key(i)` (60_exceptions.md R205). -/
def State.setKey (s : State) (i : Int) : State := s.setKeyLevel i true

/-- `unset_key(i)` (60_exceptions.md R205). -/
def State.unsetKey (s : State) (i : Int) : State := s.setKeyLevel i false

/-- `construct()` on a machine that exists: the reset state again, the parameters unaffected
(70_reset_and_hazards.md R221). -/
def State.reconstruct (s : State) : State := State.construct s.config

/-- The code of a reported condition (60_exceptions.md R190; the numbers are the spec's own). -/
def faultCode : Option Fault → Nat
  | none => 0
  | some .stackOverflow => 1
  | some .stackUnderflow => 2
  | some .memoryAccessError => 3
  | some .unknownOpcode => 4
  | some .keyIndexError => 5

/-- What one tick leaves: the state after it, and its three outputs (40_tick_engine.md R90, R97). -/
structure TickReport where
  state : State
  framebufferChanged : Bool
  shouldBeep : Bool
  fault : Option Fault
  deriving DecidableEq, Repr

/-- `should_beep = (ST > 0)`, at the end of the tick (40_tick_engine.md R97; the spec's own decision D10: log 10). -/
def State.beeping (s : State) : Bool := decide (0 < s.st.toNat)

/-- The report of a tick that ends in `s` (40_tick_engine.md R97). -/
def report (s : State) (fault : Option Fault) : TickReport :=
  { state := s, framebufferChanged := s.dirty, shouldBeep := s.beeping, fault := fault }

/-- `tick(rng)` (40_tick_engine.md R90): the step with the answer `rng` for this tick, and its outputs. After a fatal
condition the state is the one the instruction started from: dirty reset and timer decrement kept, nothing else
changed (R98; log 1). `rng` is this tick's alone, so the model's own fields are afterwards as before (log 2). -/
def tick (rng : Option Byte) (s : State) : Except Refusal TickReport :=
  match step (s.withRng [rng]) with
  | .next t => .ok (report (t.withRng s.rngIn) none)
  | .fault f => .ok (report s.beginRunning (some f))
  | .refused r => .error r

/-- The 2048-cell view, row-major, 0 or 1: cell `(x, y)` is element `y*64 + x` (60_exceptions.md R206,
10_state.md R30). -/
def fbView (fb : Framebuffer) : List Byte :=
  (List.range (Config.fbHeight * Config.fbWidth)).map fun k =>
    if fbPixel fb (k / Config.fbWidth) (k % Config.fbWidth) then 1 else 0

/-- The read-only views (60_exceptions.md R209; the spec's own decision D26: log 13). -/
structure HostView where
  v : List Byte
  i : Word
  pc : Word
  sp : Byte
  stack : List Word
  dt : Byte
  st : Byte
  keys : List Bool
  mode : Mode
  fb : List Byte
  deriving DecidableEq, Repr

/-- The views of a state (60_exceptions.md R209). -/
def State.view (s : State) : HostView :=
  { v := s.v.toList, i := s.i, pc := s.pc, sp := s.sp, stack := s.stack.toList, dt := s.dt, st := s.st,
    keys := s.keys.toList, mode := s.mode, fb := fbView s.fb }

/-- The operations of 00_scope.md R7 that can change the state. -/
inductive HostOp where
  | construct
  | load (bytes : List Byte)
  | setKey (i : Int)
  | unsetKey (i : Int)
  | tick (rng : Option Byte)
  deriving DecidableEq, Repr

/-- The state after a host operation; after a tick that raised a fatal condition, the state the host finds
(60_exceptions.md R201). -/
def HostOp.apply (s : State) : HostOp → State
  | .construct => s.reconstruct
  | .load bytes => s.load bytes
  | .setKey i => s.setKey i
  | .unsetKey i => s.unsetKey i
  | .tick rng =>
    match Sys2Proof.Machine.tick rng s with
    | .ok r => r.state
    | .error _ => s

/-- One host operation after another (00_scope.md R6: each is atomic). -/
def hostRun (s : State) (ops : List HostOp) : State := ops.foldl HostOp.apply s

end Sys2Proof.Machine
end

