-- ==== Sys2Proof/Safety.lean ====
section
/-! DEFINITION. The words claims are stated in: the invariant of the machine, what an instruction may write, the list of
causes of the fatal conditions, runs without a fatal condition. -/

namespace Sys2Proof.Machine

/-- The invariants of 10_state.md R36 that are not already facts of a type, and the canonical form of memory: `SP` is
at most 16, `PC` at most 0x10FE, every stack slot at most 0x1000. (`FB` cells, `MODE` and the widths are facts of their
types.) -/
abbrev State.Inv (s : State) : Prop :=
  s.sp.toNat ≤ 16 ∧ s.pc.toNat ≤ 0x10FE ∧ (∀ k : Fin 16, s.stack[k].toNat ≤ 0x1000) ∧
    Memory.wf s.config.font s.mem = true

/-- A run of `n` ticks in which no fatal condition is reported (60_exceptions.md R201). -/
def SafeFor (n : Nat) (s : State) : Prop := ∃ t, Host.Core.run Sys2Proof.core n s = .next t

/-- No key is down. -/
def State.NoKey (s : State) : Prop := ∀ k : Nibble, s.keyDown k = false

/-- Whether the spec lets an instruction write a register: its destination, `V[F]` for the six of 10_state.md R21,
`V[0]` to `V[x]` for LD Vx,[I]. -/
def writesReg (i : Instr) (r : Reg) : Bool :=
  match i with
  | .ldImm x _ | .addImm x _ | .ldReg x _ | .orReg x _ | .andReg x _ | .xorReg x _ | .rnd x _ | .ldFromDT x => r == x
  | .addReg x _ | .subReg x _ | .shr x _ | .subnReg x _ | .shl x _ => r == x || r == .vf
  | .drw _ _ _ => r == .vf
  | .loadRegs x => decide (r.toNat ≤ x.toNat)
  | .cls | .ret | .jp _ | .call _ | .seImm _ _ | .sneImm _ _ | .seReg _ _ | .sneReg _ _ | .ldI _ | .jpV0 _ | .skp _
  | .sknp _ | .ldKey _ | .ldDT _ | .ldST _ | .addI _ | .ldFont _ | .ldBcd _ | .storeRegs _ => false

/-- The address and the number of the bytes an instruction stores (20_memory.md R58), the address by the same
expression as its meaning uses. -/
def storesTo (i : Instr) (s : State) : Nat × Nat :=
  match i with
  | .ldBcd _ => (s.indexBase, 3)
  | .storeRegs x => (s.indexBase, x.toNat + 1)
  | .cls | .ret | .jp _ | .call _ | .seImm _ _ | .sneImm _ _ | .seReg _ _ | .ldImm _ _ | .addImm _ _ | .ldReg _ _
  | .orReg _ _ | .andReg _ _ | .xorReg _ _ | .addReg _ _ | .subReg _ _ | .shr _ _ | .subnReg _ _ | .shl _ _
  | .sneReg _ _ | .ldI _ | .jpV0 _ | .rnd _ _ | .drw _ _ _ | .skp _ | .sknp _ | .ldFromDT _ | .ldKey _ | .ldDT _
  | .ldST _ | .addI _ | .ldFont _ | .loadRegs _ => (0, 0)

/-- The fatal condition an instruction raises, read off the table of 60_exceptions.md R190 and R193. -/
def causeOf (i : Instr) (s : State) : Option Fault :=
  match i with
  | .call _ => if s.sp = 16#8 then some .stackOverflow else none
  | .ret => if s.sp = 0#8 then some .stackUnderflow else none
  | .drw _ _ n => if 0 < n.toNat ∧ 4096 ≤ s.i.toNat + n.toNat - 1 then some .memoryAccessError else none
  | .ldBcd _ => if 4096 ≤ s.i.toNat + 2 then some .memoryAccessError else none
  | .storeRegs x | .loadRegs x => if 4096 ≤ s.i.toNat + x.toNat then some .memoryAccessError else none
  | .skp x | .sknp x =>
    if 15 < (s.readReg x).toNat ∧ s.config.keyIndexPolicy = .fault then some .keyIndexError else none
  | .cls | .jp _ | .seImm _ _ | .sneImm _ _ | .seReg _ _ | .ldImm _ _ | .addImm _ _ | .ldReg _ _ | .orReg _ _
  | .andReg _ _ | .xorReg _ _ | .addReg _ _ | .subReg _ _ | .shr _ _ | .subnReg _ _ | .shl _ _ | .sneReg _ _ | .ldI _
  | .jpV0 _ | .rnd _ _ | .ldFromDT _ | .ldKey _ | .ldDT _ | .ldST _ | .addI _ | .ldFont _ => none

/-- The opcode at `PC`, for a `PC` at which two bytes exist. -/
def State.opcodeAtPc (s : State) : Word := composeOpcode (s.byteAt s.pc.toNat) (s.byteAt (s.pc.toNat + 1))

/-- The fatal condition a tick raises, in the order of 60_exceptions.md R199: fetch, decode, then the one check of the
selected handler. None in a key wait. -/
def State.cause (s : State) : Option Fault :=
  match s.mode with
  | .awaitingKey _ => none
  | .running =>
    if 0xFFF ≤ s.pc.toNat then some .memoryAccessError
    else
      match decodeWord s.opcodeAtPc with
      | .ok i => causeOf i s
      | .error _ => if s.config.strict then some .unknownOpcode else none

/-- An instruction that completes with directive `Next` and changes no more than the registers listed. -/
def State.ChangedOnlyRegs (s t : State) (l : List Reg) : Prop :=
  (∀ r, r ∉ l → t.readReg r = s.readReg r) ∧ t.pc = s.pc + 2 ∧ t = { s with v := t.v, pc := t.pc }

/-- The next state of a result, changed by `f`; a stop stays the same stop. -/
def mapNext (f : State → State) : Result → Result
  | .next s => .next (f s)
  | .fault e => .fault e
  | .refused e => .refused e

/-- The sprite bit that a DRW of the rows `rows` with origin `(ox, oy)` puts on cell `(x, y)`: bit `7 - (x - ox)` of row
`y - oy`, and no bit on a cell outside the sprite (44_display.md R171). -/
def spriteBit (oy ox : Nat) (rows : List Byte) (y x : Nat) : Bool :=
  decide (oy ≤ y) && decide (ox ≤ x) && decide (x < ox + 8) && (rows.getD (y - oy) 0).getLsbD (7 - (x - ox))

end Sys2Proof.Machine
end

