-- ==== Sys2Proof/Certificates/Slice0/Obligations.lean ====
section
/-! DEFINITION. The statements for the provers. Each docstring names the rule it formalises, or the spec's section it
rests on and, where it rests on a decision of the spec or a choice of the model, the log entry (notes/assumptions). -/

open Sys2Proof Sys2Proof.Machine

/-! ## Encoding -/

/-- 30_encoding.md R82: the six instruction words the source shows, with the bytes and the fields of the table. -/
def Obligations.SourceWordsDecode : Prop :=
  decodeWord 0x6005 = .ok (.ldImm 0 0x05) ∧ decodeWord 0x610A = .ok (.ldImm 1 0x0A) ∧
  decodeWord 0x8014 = .ok (.addReg 0 1) ∧ decodeWord 0xA050 = .ok (.ldI 0x050) ∧
  decodeWord 0xD005 = .ok (.drw 0 0 5) ∧ decodeWord 0x1200 = .ok (.jp 0x200) ∧
  [(0x6005 : Word), 0x610A, 0x8014, 0xA050, 0xD005, 0x1200].map opcodeBytes =
    [[0x60, 0x05], [0x61, 0x0A], [0x80, 0x14], [0xA0, 0x50], [0xD0, 0x05], [0x12, 0x00]] ∧
  [(0x6005 : Word), 0x610A, 0x8014, 0xA050, 0xD005, 0x1200].map
      (fun op => (opN0 op, opX op, opY op, opN op, opKk op, opNnn op)) =
    [(0x6, 0x0, 0x0, 0x5, 0x05, 0x005), (0x6, 0x1, 0x0, 0xA, 0x0A, 0x10A), (0x8, 0x0, 0x1, 0x4, 0x14, 0x014),
     (0xA, 0x0, 0x5, 0x0, 0x50, 0x050), (0xD, 0x0, 0x0, 0x5, 0x05, 0x005), (0x1, 0x2, 0x0, 0x0, 0x00, 0x200)]

/-- 30_encoding.md section 6 (R83) and section 1: decoding the bytes of an encoded instruction gives it back, whatever
bytes follow, for every instruction with every operand. The bit patterns rest on log 5. -/
def Obligations.DecodeOfEncodeIsIdentity : Prop :=
  ∀ (i : Instr) (rest : List Byte), i.WellFormed → decode (encodeBytes i ++ rest) = .ok (i, rest)

/-- 30_encoding.md section 3: each word has at most one meaning, and no bit of a word that decodes is dropped. The bit
patterns rest on log 5; so does the clause for 8xy6 and 8xyE, where keeping the `y` that SHR and SHL ignore is the
MODEL'S CHOICE (by 30_encoding.md section 4 all sixteen `y` give the same instruction, by its section 6 the assembler
writes 0). -/
def Obligations.EncodeOfDecodeIsIdentity : Prop :=
  ∀ (op : Word) (i : Instr), decodeWord op = .ok i → encode i = op ∧ i.WellFormed

/-- 30_encoding.md section 3 (R74): the decoder and the mask and match table agree on every word: a word decodes exactly
when a row selects it, to an instruction of that row's mnemonic and format, and R83's formula on that row rebuilds the
word from the instruction's operands. The table rests on log 5; so does the rebuilding of 8xy6 and 8xyE, where keeping
the `y` that SHR and SHL ignore is the MODEL'S CHOICE (by section 6 the assembler writes 0). -/
def Obligations.DecoderAgreesWithOpcodeMap : Prop :=
  (∀ (op : Word) (i : Instr), decodeWord op = .ok i →
    ∃ r ∈ opcodeTable, r.selects op = true ∧ r.mnemonic = i.mnemonic ∧ r.format = i.format ∧
      r.assemble i.operands = op) ∧
  (∀ (op : Word) (e : DecodeError), decodeWord op = .error e → ∀ r ∈ opcodeTable, r.selects op = false)

/-- 30_encoding.md section 3 (R74): the 34 (mask, match) pairs are pairwise disjoint. The table rests on log 5. -/
def Obligations.OpcodeRowsAreDisjoint : Prop :=
  opcodeTable.length = 34 ∧
  ∀ (op : Word) (r₁ r₂ : OpcodeRow), r₁ ∈ opcodeTable → r₂ ∈ opcodeTable → r₁.selects op = true →
    r₂.selects op = true → r₁ = r₂

/-- 30_encoding.md section 4: the unmatched words are exactly the six classes of R76, each rejected by its own name
(the set is the spec's own decision D11: log 5). -/
def Obligations.UnmatchedWordsAreExactlyListed : Prop :=
  ∀ op : Word,
    (decodeWord op = .error .unmatched0 ↔ opN0 op = 0x0 ∧ opNnn op ≠ 0x0E0 ∧ opNnn op ≠ 0x0EE) ∧
    (decodeWord op = .error .unmatched5 ↔ opN0 op = 0x5 ∧ opN op ≠ 0) ∧
    (decodeWord op = .error .unmatched8 ↔
      opN0 op = 0x8 ∧ opN op ∈ [(0x8 : Nibble), 0x9, 0xA, 0xB, 0xC, 0xD, 0xF]) ∧
    (decodeWord op = .error .unmatched9 ↔ opN0 op = 0x9 ∧ opN op ≠ 0) ∧
    (decodeWord op = .error .unmatchedE ↔ opN0 op = 0xE ∧ opKk op ≠ 0x9E ∧ opKk op ≠ 0xA1) ∧
    (decodeWord op = .error .unmatchedF ↔
      opN0 op = 0xF ∧ opKk op ∉ [(0x07 : Byte), 0x0A, 0x15, 0x18, 0x1E, 0x29, 0x33, 0x55, 0x65]) ∧
    decodeWord op ≠ .error .truncated

/-! ## The tick engine -/

/-- 40_tick_engine.md sections 1 and 2 (R90, R93, R95): a Running tick whose two bytes at `PC` decode to `i` is `exec i`
at the state with the dirty flag reset and both timers one lower (stopping at 0), everything else as before. -/
def Obligations.StepRunsDecodedInstruction : Prop :=
  ∀ (s : State) (i : Instr), s.mode = .running → s.pc.toNat + 1 < 4096 →
    decode [s.byteAt s.pc.toNat, s.byteAt (s.pc.toNat + 1)] = .ok (i, []) → i.WellFormed →
    ∃ b : State, step s = exec i b ∧ b = { s with dirty := false, dt := b.dt, st := b.st } ∧
      b.dt.toNat = s.dt.toNat - 1 ∧ b.st.toNat = s.st.toNat - 1

/-- 40_tick_engine.md R92: the `AwaitingKey(t)` branch. With no key pressed only the dirty flag is reset; with `k` the
least pressed key, `V[t] <- k` and `MODE <- Running`, and nothing else changes. -/
def Obligations.KeyWaitTickScansKeysInOrder : Prop :=
  ∀ (s : State) (t : Reg), s.mode = .awaitingKey t →
    (s.NoKey → step s = .next { s with dirty := false }) ∧
    (∀ k : Nibble, s.keyDown k = true → (∀ j : Nibble, j.toNat < k.toNat → s.keyDown j = false) →
      ∃ u, step s = .next u ∧ (u.readReg t).toNat = k.toNat ∧ (∀ r, r ≠ t → u.readReg r = s.readReg r) ∧
        u.mode = .running ∧ u = { s with dirty := false, mode := u.mode, v := u.v })

/-- 40_tick_engine.md R100: the unmatched handler in both modes, and the rule's example from reset. -/
def Obligations.UnmatchedWordIsNoOpOrUnknownOpcode : Prop :=
  (∀ (s : State) (e : DecodeError), s.mode = .running → s.pc.toNat + 1 < 4096 →
    decode [s.byteAt s.pc.toNat, s.byteAt (s.pc.toNat + 1)] = .error e →
    (s.config.strict = false →
      ∃ u, step s = .next u ∧ u = { s with dirty := false, dt := u.dt, st := u.st, pc := s.pc + 2#16 } ∧
        u.dt.toNat = s.dt.toNat - 1 ∧ u.st.toNat = s.st.toNat - 1) ∧
    (s.config.strict = true → step s = .fault .unknownOpcode)) ∧
  (∀ rng : Option Byte, tick rng State.reset =
    .ok { state := { State.reset with pc := 0x202 }, framebufferChanged := false, shouldBeep := false, fault := none })

/-- 40_tick_engine.md section 2 (R94): a fetch from `PC >= 0xFFF` raises `MemoryAccessError`; below, the opcode is
`MEM[PC] * 256 + MEM[PC + 1]`. The bound on the fetch is the spec's own decision D6 (log 8). -/
def Obligations.FetchIsBigEndianAndChecked : Prop :=
  ∀ s : State,
    (0xFFF ≤ s.pc.toNat → s.fetch = .error .memoryAccessError ∧
      (s.mode = .running → step s = .fault .memoryAccessError)) ∧
    (s.pc.toNat < 0xFFF → ∃ op, s.fetch = .ok op ∧
      op.toNat = (s.byteAt s.pc.toNat).toNat * 256 + (s.byteAt (s.pc.toNat + 1)).toNat)

/-- 60_exceptions.md sections 1 and 3 (R190, R199): a tick raises a fatal condition exactly when the table says, and
that one; no tick is refused. `SP` above 16, which no run reaches, is ruled out by the invariant. The conditions of the
fetch, of the multi-byte accesses and of the key number are the spec's own decisions D6, D7, D8, D9 (logs 3, 8), and the
order fetch, decode, handler is its decision D22 (log 17). -/
def Obligations.TickRaisesExactlyTheListedConditions : Prop :=
  ∀ s : State, s.Inv →
    (∀ f, step s = .fault f ↔ s.cause = some f) ∧ ((∃ t, step s = .next t) ↔ s.cause = none) ∧
    (∀ r, step s ≠ .refused r)

/-- 40_tick_engine.md section 2 (R98): the report of a tick that raises. The instruction has written nothing, `PC` still
addresses it; the dirty reset and the timer decrement stand; `framebuffer_changed` is false. The spec's own decisions D3
and D23 (log 1). -/
def Obligations.FatalConditionIsPrecise : Prop :=
  ∀ (s : State) (rng : Option Byte) (r : TickReport) (f : Fault), tick rng s = .ok r → r.fault = some f →
    s.mode = .running ∧ r.state = { s with dirty := false, dt := r.state.dt, st := r.state.st } ∧
      r.state.dt.toNat = s.dt.toNat - 1 ∧ r.state.st.toNat = s.st.toNat - 1 ∧ r.framebufferChanged = false ∧
      (r.shouldBeep = true ↔ 0 < r.state.st.toNat)

/-- 60_exceptions.md section 4 (R201): a further tick raises the same condition again, whatever the random source answers
and whatever keys the host has set; and nothing is latched: where `load` replaces the bytes at `PC` by those of another
instruction, the next step runs that instruction (a JP then completes, with no condition reported). The spec's own
decision D4, on the state after a tick that raised, decision D3 (log 1). -/
def Obligations.FatalConditionRecurs : Prop :=
  ∀ (s : State) (rng rng' : Option Byte) (r : TickReport) (f : Fault) (keys : Vector Bool 16),
    tick rng s = .ok r → r.fault = some f →
    (∃ r', tick rng' { r.state with keys := keys } = .ok r' ∧ r'.fault = some f ∧ r'.state.pc = s.pc ∧
      r'.state.v = s.v ∧ r'.state.sp = s.sp ∧ r'.state.mem = s.mem) ∧
    (∀ (bytes : List Byte) (hi lo : Byte) (i : Instr), 0x200 ≤ s.pc.toNat → s.pc.toNat + 1 < 4096 →
      bytes[s.pc.toNat - 0x200]? = some hi → bytes[s.pc.toNat - 0x200 + 1]? = some lo →
      decodeWord (composeOpcode hi lo) = .ok i →
      (∃ b, step (r.state.load bytes) = exec i b ∧
        b = { r.state.load bytes with dirty := false, dt := b.dt, st := b.st } ∧
        b.dt.toNat = r.state.dt.toNat - 1 ∧ b.st.toNat = r.state.st.toNat - 1) ∧
      ∀ nnn, i = .jp nnn → ∃ r', tick rng' (r.state.load bytes) = .ok r' ∧ r'.fault = none ∧
        r'.state.pc.toNat = nnn.toNat)

/-- 60_exceptions.md section 8 (R206) and 40_tick_engine.md section 2 (R97): `framebuffer_changed` is true exactly when
the instruction of the tick was a CLS or a DRW that completed. That it is false on a tick that raised is the spec's own
decision D23 (log 1). -/
def Obligations.FramebufferChangedMeansClsOrDrw : Prop :=
  ∀ (s : State) (rng : Option Byte) (r : TickReport), tick rng s = .ok r →
    (r.framebufferChanged = true ↔ s.mode = .running ∧ r.fault = none ∧
      (decodeWord s.opcodeAtPc = .ok .cls ∨ ∃ x y n, decodeWord s.opcodeAtPc = .ok (.drw x y n)))

/-- 40_tick_engine.md section 3 (R102): over one tick, `DT` is left or goes one lower (never below 0) unless the
instruction is LD DT,Vx, and likewise `ST` with LD ST,Vx; a key-wait tick leaves both. -/
def Obligations.TimersFallByAtMostOne : Prop :=
  ∀ s t : State, step s = .next t →
    (∀ r, s.mode = .awaitingKey r → t.dt = s.dt ∧ t.st = s.st) ∧
    (s.mode = .running → (∀ x, decodeWord s.opcodeAtPc ≠ .ok (.ldDT x)) → t.dt.toNat = s.dt.toNat - 1) ∧
    (s.mode = .running → (∀ x, decodeWord s.opcodeAtPc ≠ .ok (.ldST x)) → t.st.toNat = s.st.toNat - 1)

/-- 40_tick_engine.md section 3 (R101): the tick that executes LD Vx,K, the wait, and the tick that ends it, in one
timeline: from a Running state whose opcode is LD Vx,K, `n` ticks without a key change nothing more, and with key `k`
the least one down the next tick writes it and the machine is Running at `a + 2`. -/
def Obligations.KeyWaitTimeline : Prop :=
  ∀ (s : State) (x : Reg) (n : Nat), s.mode = .running → s.pc.toNat + 1 < 4096 →
    decodeWord s.opcodeAtPc = .ok (.ldKey x) → s.NoKey →
    ∃ w, Host.Core.run Sys2Proof.core (n + 1) s = .next w ∧ w.mode = .awaitingKey x ∧ w.pc = s.pc + 2#16 ∧ w.v = s.v ∧
      w.dt.toNat = s.dt.toNat - 1 ∧ w.st.toNat = s.st.toNat - 1 ∧ w.mem = s.mem ∧
      (∀ (keys : Vector Bool 16) (k : Nibble), ({ w with keys := keys } : State).keyDown k = true →
        (∀ j : Nibble, j.toNat < k.toNat → ({ w with keys := keys } : State).keyDown j = false) →
        ∃ u, step { w with keys := keys } = .next u ∧ (u.readReg x).toNat = k.toNat ∧ u.mode = .running ∧
          u.pc = s.pc + 2#16 ∧ u.dt = w.dt ∧ u.st = w.st)

/-- 70_reset_and_hazards.md section 4 (R236): a key wait in which no key is pressed is a run of any length in which no
tick changes anything but the dirty flag, and none raises a fatal condition. -/
def Obligations.KeyWaitWithoutKeyNeverEnds : Prop :=
  ∀ (s : State) (t : Reg) (n : Nat), s.mode = .awaitingKey t → s.NoKey →
    Host.Core.run Sys2Proof.core (n + 1) s = .next { s with dirty := false }

/-! ## Reset and invariants -/

/-- 70_reset_and_hazards.md R220: the state after `construct()`, for every value of the parameters. -/
def Obligations.ConstructGivesTheResetState : Prop :=
  (∀ c : Config,
    let s := State.construct c
    (∀ r, s.readReg r = 0) ∧ s.i = 0 ∧ s.sp = 0#8 ∧ (∀ k : Fin 16, s.stack[k] = 0) ∧ s.dt = 0 ∧ s.st = 0 ∧
    s.pc = 0x200 ∧ s.NoKey ∧ s.mode = .running ∧ (∀ y x, fbPixel s.fb y x = false) ∧ s.dirty = false ∧
    s.config = c ∧ (∀ k : Fin 80, s.byteAt (0x050 + k) = c.font[k]) ∧
    (∀ a, a < 4096 → a < 0x050 ∨ 0x09F < a → s.byteAt a = 0)) ∧
  (∀ s : State, s.reconstruct = State.construct s.config)

/-- The invariant holds at reset (10_state.md section 8, R36). -/
def Obligations.ResetKeepsTheInvariants : Prop := State.reset.Inv

/-- 10_state.md section 8 (R36) and 20_memory.md section 1: every tick keeps the invariants: `SP` at most 16, `PC` at
most 0x10FE, stack slots at most 0x1000, memory in its canonical form (log 9) with every address below 4096. -/
def Obligations.StepKeepsTheInvariants : Prop :=
  ∀ s t : State, s.Inv → step s = .next t → t.Inv

/-- 10_state.md section 8 (R36, "kept by every operation"): after any sequence of host operations, ticks that raised a
fatal condition among them, the invariants hold and the parameters are what they were. The state after a tick that
raised is the spec's own decision D3 (log 1); the canonical form of memory in the invariant is the model's (log 9). -/
def Obligations.HostOperationsKeepTheInvariants : Prop :=
  ∀ (s : State) (ops : List HostOp), s.Inv → (hostRun s ops).Inv ∧ (hostRun s ops).config = s.config

/-! ## Control flow -/

/-- 41_control_flow.md R111: JP. -/
def Obligations.JumpLoadsTheAddress : Prop :=
  ∀ (s : State) (nnn : Addr12),
    ∃ t, exec (.jp nnn) s = .next t ∧ t.pc.toNat = nnn.toNat ∧ t = { s with pc := t.pc } ∧
      (nnn = 0xFFF → s.mode = .running → step t = .fault .memoryAccessError)

/-- 41_control_flow.md R117: JP V0,nnn; the sum is not reduced modulo 4096, and a target of 0xFFF or more makes the next
fetch raise. -/
def Obligations.JumpWithOffsetAddsV0 : Prop :=
  ∀ (s : State) (nnn : Addr12),
    ∃ t, exec (.jpV0 nnn) s = .next t ∧ t.pc.toNat = nnn.toNat + (s.readReg 0).toNat ∧ t.pc.toNat ≤ 0x10FE ∧
      t = { s with pc := t.pc } ∧ (0xFFF ≤ t.pc.toNat → s.mode = .running → step t = .fault .memoryAccessError)

/-- 41_control_flow.md, the rule of CALL: it pushes `PC + 2` and jumps while the stack is not full; with `SP = 16` (a seventeenth
nested call) it raises `StackOverflow`, and then the tick pushes nothing, `SP` stays 16, `PC` stays at the CALL and no
other state but `DIRTY` and the timers can differ. A CALL followed at once by a RET restores `PC` to the call site plus
2, and `SP`, at every nesting depth from 0 to 15. The state after the tick that raised is the spec's own decision D3
(log 1). -/
def Obligations.CallPushesReturnAddress : Prop :=
  (∀ (s : State) (nnn : Addr12) (h : s.sp.toNat < 16),
    ∃ t, exec (.call nnn) s = .next t ∧ t.stack[s.sp.toNat] = s.pc + 2#16 ∧
      (∀ k : Fin 16, k.val ≠ s.sp.toNat → t.stack[k] = s.stack[k]) ∧ t.sp.toNat = s.sp.toNat + 1 ∧
      t.pc.toNat = nnn.toNat ∧ t = { s with stack := t.stack, sp := t.sp, pc := t.pc } ∧
      ∃ u, exec .ret t = .next u ∧ u.pc = s.pc + 2#16 ∧ u.sp = s.sp ∧ u = { s with pc := u.pc, stack := u.stack }) ∧
  (∀ (s : State) (nnn : Addr12) (rng : Option Byte), s.sp = 16#8 →
    exec (.call nnn) s = .fault .stackOverflow ∧
    (s.mode = .running → s.pc.toNat + 1 < 4096 → decodeWord s.opcodeAtPc = .ok (.call nnn) →
      ∃ r, tick rng s = .ok r ∧ r.fault = some .stackOverflow ∧
        { r.state with dirty := s.dirty, dt := s.dt, st := s.st } = s))

/-- 41_control_flow.md, the rule of RET: it pops and jumps while the stack is not empty, the slot keeps its value; with `SP = 0` it
raises `StackUnderflow`, and then no state but `DIRTY` and the timers can differ, and `PC` stays at the RET. A popped
address is at most 0x1000 in a state that meets the invariant, and one of 0xFFF or more makes the next fetch raise. The
spec's own decisions: the slot kept, D14 (log 11); the state after the tick that raised, D3 (log 1); the bound on the
fetch, D6 (log 8). -/
def Obligations.ReturnPopsTheStack : Prop :=
  (∀ (s : State) (h : 1 ≤ s.sp.toNat ∧ s.sp.toNat ≤ 16),
    ∃ t, exec .ret s = .next t ∧ t.sp.toNat = s.sp.toNat - 1 ∧ t.pc = s.stack[s.sp.toNat - 1] ∧
      t = { s with sp := t.sp, pc := t.pc } ∧ (s.Inv → t.pc.toNat ≤ 0x1000) ∧
      (0xFFF ≤ t.pc.toNat → s.mode = .running → step t = .fault .memoryAccessError)) ∧
  (∀ (s : State) (rng : Option Byte), s.sp = 0#8 →
    exec .ret s = .fault .stackUnderflow ∧
    (s.mode = .running → s.pc.toNat + 1 < 4096 → decodeWord s.opcodeAtPc = .ok .ret →
      ∃ r, tick rng s = .ok r ∧ r.fault = some .stackUnderflow ∧
        { r.state with dirty := s.dirty, dt := s.dt, st := s.st } = s))

/-- 41_control_flow.md R113, R114, R115, R116: the four conditional skips. `x = y` always skips for SE Vx,Vy and never
for SNE Vx,Vy. -/
def Obligations.ConditionalSkips : Prop :=
  ∀ (s : State) (x y : Reg) (kk : Byte),
    (∃ t, exec (.seImm x kk) s = .next t ∧ t = { s with pc := t.pc } ∧
      t.pc = if s.readReg x = kk then s.pc + 4#16 else s.pc + 2#16) ∧
    (∃ t, exec (.sneImm x kk) s = .next t ∧ t = { s with pc := t.pc } ∧
      t.pc = if s.readReg x = kk then s.pc + 2#16 else s.pc + 4#16) ∧
    (∃ t, exec (.seReg x y) s = .next t ∧ t = { s with pc := t.pc } ∧
      (t.pc = if s.readReg x = s.readReg y then s.pc + 4#16 else s.pc + 2#16) ∧ (x = y → t.pc = s.pc + 4#16)) ∧
    (∃ t, exec (.sneReg x y) s = .next t ∧ t = { s with pc := t.pc } ∧
      (t.pc = if s.readReg x = s.readReg y then s.pc + 2#16 else s.pc + 4#16) ∧ (x = y → t.pc = s.pc + 2#16))

/-! ## Register loads, arithmetic, logic, shifts, random -/

/-- 42_alu.md R130, R131, R132: the loads and the add of an immediate; `V[F]` changes only as the destination. -/
def Obligations.LoadsAndImmediateAdd : Prop :=
  ∀ (s : State) (x y : Reg) (kk : Byte),
    (∃ t, exec (.ldImm x kk) s = .next t ∧ t.readReg x = kk ∧ s.ChangedOnlyRegs t [x]) ∧
    (∃ t, exec (.addImm x kk) s = .next t ∧ (t.readReg x).toNat = ((s.readReg x).toNat + kk.toNat) % 256 ∧
      s.ChangedOnlyRegs t [x]) ∧
    (∃ t, exec (.ldReg x y) s = .next t ∧ t.readReg x = s.readReg y ∧ s.ChangedOnlyRegs t [x])

/-- 42_alu.md, the rules of OR, AND and XOR, bit by bit. That `V[F]` is left alone unless it is the destination is the
spec's own decision D15 (log 7). -/
def Obligations.LogicalOperations : Prop :=
  ∀ (s : State) (x y : Reg),
    (∃ t, exec (.orReg x y) s = .next t ∧ s.ChangedOnlyRegs t [x] ∧
      ∀ b, (t.readReg x).getLsbD b = ((s.readReg x).getLsbD b || (s.readReg y).getLsbD b)) ∧
    (∃ t, exec (.andReg x y) s = .next t ∧ s.ChangedOnlyRegs t [x] ∧
      ∀ b, (t.readReg x).getLsbD b = ((s.readReg x).getLsbD b && (s.readReg y).getLsbD b)) ∧
    (∃ t, exec (.xorReg x y) s = .next t ∧ s.ChangedOnlyRegs t [x] ∧
      ∀ b, (t.readReg x).getLsbD b = ((s.readReg x).getLsbD b ^^ (s.readReg y).getLsbD b))

/-- 42_alu.md R136: ADD Vx,Vy for every `x` and `y`: the sum modulo 256 in `V[x]` unless `x = F`, and in `V[F]` the carry
in every case. -/
def Obligations.AddRegistersSetsCarry : Prop :=
  ∀ (s : State) (x y : Reg),
    ∃ t, exec (.addReg x y) s = .next t ∧ s.ChangedOnlyRegs t [x, .vf] ∧
      (x ≠ .vf → (t.readReg x).toNat = ((s.readReg x).toNat + (s.readReg y).toNat) % 256) ∧
      t.readReg .vf = (if 255 < (s.readReg x).toNat + (s.readReg y).toNat then 1 else 0)

/-- 42_alu.md, the rules of SUB and SUBN, for every `x` and `y`: the difference modulo 256 in `V[x]`, and in `V[F]` the
not-borrow flag unless `x = F`. The cases where `V[F]` is an operand are the spec's own decision D2 (log 6). -/
def Obligations.SubtractionsSetNotBorrow : Prop :=
  ∀ (s : State) (x y : Reg),
    (∃ t, exec (.subReg x y) s = .next t ∧ s.ChangedOnlyRegs t [x, .vf] ∧
      ((t.readReg x).toNat : Int) = ((s.readReg x).toNat - (s.readReg y).toNat : Int) % 256 ∧
      (x ≠ .vf → t.readReg .vf = (if (s.readReg y).toNat ≤ (s.readReg x).toNat then 1 else 0))) ∧
    (∃ t, exec (.subnReg x y) s = .next t ∧ s.ChangedOnlyRegs t [x, .vf] ∧
      ((t.readReg x).toNat : Int) = ((s.readReg y).toNat - (s.readReg x).toNat : Int) % 256 ∧
      (x ≠ .vf → t.readReg .vf = (if (s.readReg x).toNat ≤ (s.readReg y).toNat then 1 else 0)))

/-- 42_alu.md, the rules of SHR and SHL: one position, logical, on `V[x]` alone, the dropped bit in `V[F]` unless `x = F`;
`y` has no effect. The spec's own decisions D2 and D15 (logs 6, 7). -/
def Obligations.ShiftsSetDroppedBit : Prop :=
  ∀ (s : State) (x y : Reg),
    (∃ t, exec (.shr x y) s = .next t ∧ s.ChangedOnlyRegs t [x, .vf] ∧
      (t.readReg x).toNat = (s.readReg x).toNat / 2 ∧
      (x ≠ .vf → (t.readReg .vf).toNat = (s.readReg x).toNat % 2)) ∧
    (∃ t, exec (.shl x y) s = .next t ∧ s.ChangedOnlyRegs t [x, .vf] ∧
      (t.readReg x).toNat = (s.readReg x).toNat * 2 % 256 ∧
      (x ≠ .vf → (t.readReg .vf).toNat = (s.readReg x).toNat / 128)) ∧
    (∀ y', exec (.shr x y) s = exec (.shr x y') s ∧ exec (.shl x y) s = exec (.shl x y') s)

/-- 42_alu.md, the rule of RND, and 60_exceptions.md R197: the answer of the random source masked by `kk`, 0 for a failed
draw; on `tick`, with the answer as an input, and on `exec`, for every value of the free answer (log 2, decision D17). -/
def Obligations.RandomByteIsMasked : Prop :=
  (∀ (s : State) (x : Reg) (kk : Byte),
    ∃ t, exec (.rnd x kk) s = .next t ∧ t.readReg x = (s.rngAnswer.getD 0 &&& kk) ∧
      (∀ r, r ≠ x → t.readReg r = s.readReg r) ∧ t.pc = s.pc + 2#16 ∧
      t = { s with v := t.v, pc := t.pc, rngIn := t.rngIn, rngDraws := t.rngDraws }) ∧
  (∀ (s : State) (x : Reg) (kk : Byte) (rng : Option Byte), s.mode = .running → s.pc.toNat + 1 < 4096 →
    decodeWord s.opcodeAtPc = .ok (.rnd x kk) →
    ∃ r, tick rng s = .ok r ∧ r.fault = none ∧ r.state.pc = s.pc + 2#16 ∧
      r.state.readReg x = (match rng with | some b => b &&& kk | none => 0))

/-- 42_alu.md, the rule of RND ("on other ticks its value has no effect"): two ticks from one state whose instruction is
not RND differ in nothing, whatever the random source answers. -/
def Obligations.OnlyRndReadsTheRandomSource : Prop :=
  ∀ (s : State) (rng rng' : Option Byte),
    (s.mode = .running → ∀ x kk, decodeWord s.opcodeAtPc ≠ .ok (.rnd x kk)) → tick rng s = tick rng' s

/-! ## Index register and memory -/

/-- 43_index_memory.md R150: LD I. -/
def Obligations.LoadIndexImmediate : Prop :=
  ∀ (s : State) (nnn : Addr12),
    ∃ t, exec (.ldI nnn) s = .next t ∧ t.i.toNat = nnn.toNat ∧ t = { s with i := t.i, pc := s.pc + 2#16 }

/-- 43_index_memory.md, the rules of ADD I,Vx and LD F,Vx: neither writes `V[F]` nor raises anything; the wrap at 65536
and the use of the whole byte are the spec's own decisions D16 and D15 (logs 11, 7). -/
def Obligations.IndexArithmetic : Prop :=
  ∀ (s : State) (x : Reg),
    (∃ t, exec (.addI x) s = .next t ∧ t.i.toNat = (s.i.toNat + (s.readReg x).toNat) % 65536 ∧
      t = { s with i := t.i, pc := s.pc + 2#16 }) ∧
    (∃ t, exec (.ldFont x) s = .next t ∧ t.i.toNat = (s.readReg x).toNat * 5 + 0x050 ∧
      t = { s with i := t.i, pc := s.pc + 2#16 })

/-- 20_memory.md R52, R53: the access primitives on one byte, for any natural number as address: at or above 4096 they
raise, below they read and write `MEM[addr]`, and a read has no side effect (it answers no state). -/
def Obligations.MemoryPrimitivesAreBoundsChecked : Prop :=
  ∀ (s : State) (a : Nat) (b : Byte),
    (4096 ≤ a → s.memRead a 1 = .error .memoryAccessError ∧ s.memWrite a [b] = .error .memoryAccessError) ∧
    (a < 4096 → s.memRead a 1 = .ok [s.byteAt a] ∧
      ∃ t, s.memWrite a [b] = .ok t ∧ t.byteAt a = b ∧ (∀ c, c ≠ a → t.byteAt c = s.byteAt c) ∧
        t = { s with mem := t.mem })

/-- 43_index_memory.md, the rule of LD B: the three decimal digits at `I`, `I + 1`, `I + 2`, or `MemoryAccessError` with
none of them written. The check of all three and the unchanged `I` are the spec's own decisions D7, D15 (logs 8, 7). -/
def Obligations.BcdStoresThreeDigits : Prop :=
  ∀ (s : State) (x : Reg),
    (s.i.toNat + 2 < 4096 →
      ∃ t, exec (.ldBcd x) s = .next t ∧ t = { s with mem := t.mem, pc := s.pc + 2#16 } ∧
        (t.byteAt s.indexBase).toNat * 100 + (t.byteAt (s.indexBase + 1)).toNat * 10 +
          (t.byteAt (s.indexBase + 2)).toNat = (s.readReg x).toNat ∧
        (t.byteAt s.indexBase).toNat ≤ 2 ∧ (t.byteAt (s.indexBase + 1)).toNat ≤ 9 ∧
        (t.byteAt (s.indexBase + 2)).toNat ≤ 9 ∧
        ∀ a, a < s.indexBase ∨ s.indexBase + 3 ≤ a → t.byteAt a = s.byteAt a) ∧
    (4096 ≤ s.i.toNat + 2 → exec (.ldBcd x) s = .fault .memoryAccessError)

/-- 43_index_memory.md, the rule of LD [I],Vx: `V[0]` to `V[x]` at `I` to `I + x`, or `MemoryAccessError` with nothing
written. The spec's own decisions D7, D15 (logs 8, 7). -/
def Obligations.RegisterDumpStoresInclusiveRange : Prop :=
  ∀ (s : State) (x : Reg),
    (s.i.toNat + x.toNat < 4096 →
      ∃ t, exec (.storeRegs x) s = .next t ∧ t = { s with mem := t.mem, pc := s.pc + 2#16 } ∧
        (∀ r : Reg, r.toNat ≤ x.toNat → t.byteAt (s.indexBase + r.toNat) = s.readReg r) ∧
        ∀ a, a < s.indexBase ∨ s.indexBase + x.toNat < a → t.byteAt a = s.byteAt a) ∧
    (4096 ≤ s.i.toNat + x.toNat → exec (.storeRegs x) s = .fault .memoryAccessError)

/-- 43_index_memory.md, the rule of LD Vx,[I]: the bytes at `I` to `I + x` in `V[0]` to `V[x]`, the registers above
unchanged, or `MemoryAccessError` with no register written. The spec's own decisions D7, D15 (logs 8, 7). -/
def Obligations.RegisterLoadReadsInclusiveRange : Prop :=
  ∀ (s : State) (x : Reg),
    (s.i.toNat + x.toNat < 4096 →
      ∃ t, exec (.loadRegs x) s = .next t ∧ t = { s with v := t.v, pc := s.pc + 2#16 } ∧
        (∀ r : Reg, r.toNat ≤ x.toNat → t.readReg r = s.byteAt (s.indexBase + r.toNat)) ∧
        ∀ r : Reg, x.toNat < r.toNat → t.readReg r = s.readReg r) ∧
    (4096 ≤ s.i.toNat + x.toNat → exec (.loadRegs x) s = .fault .memoryAccessError)

/-- 20_memory.md section 4 (R63): self-modifying code. A register dump onto the word after it is what the next fetch
reads: after a dump of two or more registers at `PC + 2`, the next opcode is `V[0]`, `V[1]`. -/
def Obligations.StoreIsSeenByTheNextFetch : Prop :=
  ∀ (s : State) (x : Reg), 1 ≤ x.toNat → s.i = s.pc + 2#16 → s.i.toNat + x.toNat < 4096 →
    ∃ t, exec (.storeRegs x) s = .next t ∧ t.fetch = .ok (composeOpcode (s.readReg 0) (s.readReg 1))

/-! ## Display -/

/-- 44_display.md R170: CLS, whatever the framebuffer holds; a tick of it reports `framebuffer_changed`. -/
def Obligations.ClearScreenZeroesEveryCell : Prop :=
  (∀ s : State, ∃ t, exec .cls s = .next t ∧ (∀ y x, y < 32 → x < 64 → fbPixel t.fb y x = false) ∧ t.dirty = true ∧
    t = { s with fb := t.fb, dirty := t.dirty, pc := s.pc + 2#16 }) ∧
  (∀ (s : State) (rng : Option Byte), s.mode = .running → s.pc.toNat + 1 < 4096 →
    decodeWord s.opcodeAtPc = .ok .cls → ∃ r, tick rng s = .ok r ∧ r.framebufferChanged = true ∧ r.fault = none)

/-- 44_display.md, the rule of DRW, cell by cell: each cell is what it was, exclusive-or the sprite bit that lands on it
(rows past 31 and columns past 63 land on none); `V[F]` is 1 exactly when a lit cell met a set bit; no other register
changes; `DIRTY` is set; `MemoryAccessError` exactly when `n > 0` and `I + n - 1 >= 4096`. The origin comes from the
registers as they were (decision D2, log 6); all rows are read and checked (decision D8, log 8). -/
def Obligations.DrawXorsSpriteAndDetectsCollision : Prop :=
  ∀ (s : State) (x y : Reg) (n : Nibble),
    (0 < n.toNat → 4096 ≤ s.i.toNat + n.toNat - 1 → exec (.drw x y n) s = .fault .memoryAccessError) ∧
    (n.toNat = 0 ∨ s.i.toNat + n.toNat - 1 < 4096 →
      let rows := (List.range n.toNat).map fun k => s.byteAt (s.indexBase + k)
      let bit := spriteBit ((s.readReg y).toNat % 32) ((s.readReg x).toNat % 64) rows
      ∃ t, exec (.drw x y n) s = .next t ∧
        (∀ cy cx, cy < 32 → cx < 64 → fbPixel t.fb cy cx = (fbPixel s.fb cy cx ^^ bit cy cx)) ∧
        (t.readReg .vf = 1 ∨ t.readReg .vf = 0) ∧
        (t.readReg .vf = 1 ↔ ∃ cy cx, cy < 32 ∧ cx < 64 ∧ fbPixel s.fb cy cx = true ∧ bit cy cx = true) ∧
        (∀ r, r ≠ .vf → t.readReg r = s.readReg r) ∧ t.dirty = true ∧
        t = { s with v := t.v, fb := t.fb, dirty := t.dirty, pc := s.pc + 2#16 })

/-- 44_display.md, corner case (g) and the source's property of an overlapping draw: drawing the same sprite twice at the
same place restores the framebuffer. For every framebuffer, the first or the second draw gives `V[F] = 1` exactly when the
sprite has a set bit inside the screen; onto a clear framebuffer the first gives 0, so it is the second. `V[F]` as an
operand is left to DrawXorsSpriteAndDetectsCollision, because the first draw changes it, and with it the place. The check
of all rows and the form with `n = 0` are the spec's own decision D8 (log 8). -/
def Obligations.DrawTwiceRestoresTheFramebuffer : Prop :=
  ∀ (s : State) (x y : Reg) (n : Nibble), x ≠ .vf → y ≠ .vf → (n.toNat = 0 ∨ s.i.toNat + n.toNat - 1 < 4096) →
    let rows := (List.range n.toNat).map fun k => s.byteAt (s.indexBase + k)
    let bit := spriteBit ((s.readReg y).toNat % 32) ((s.readReg x).toNat % 64) rows
    ∃ t u, exec (.drw x y n) s = .next t ∧ exec (.drw x y n) t = .next u ∧ u.fb = s.fb ∧
      ((t.readReg .vf = 1 ∨ u.readReg .vf = 1) ↔ ∃ cy cx, cy < 32 ∧ cx < 64 ∧ bit cy cx = true) ∧
      ((∀ cy cx, fbPixel s.fb cy cx = false) → t.readReg .vf = 0 ∧
        (u.readReg .vf = 1 ↔ ∃ cy cx, cy < 32 ∧ cx < 64 ∧ bit cy cx = true))

/-! ## Keypad and timers -/

/-- 45_keypad_timers.md, the rules of SKP and SKNP: for a key number up to 15 the level of the key decides; above 15 the
parameter `KEY_INDEX_POLICY` does (open in the spec, decision D9: log 3), all three values. -/
def Obligations.KeySkips : Prop :=
  ∀ (s : State) (x : Reg),
    (∀ k : Nibble, (s.readReg x).toNat = k.toNat ∨
        (15 < (s.readReg x).toNat ∧ s.config.keyIndexPolicy = .lowNibble ∧ (s.readReg x).toNat % 16 = k.toNat) →
      (∃ t, exec (.skp x) s = .next t ∧ t = { s with pc := t.pc } ∧
        t.pc = if s.keyDown k = true then s.pc + 4#16 else s.pc + 2#16) ∧
      (∃ t, exec (.sknp x) s = .next t ∧ t = { s with pc := t.pc } ∧
        t.pc = if s.keyDown k = true then s.pc + 2#16 else s.pc + 4#16)) ∧
    (15 < (s.readReg x).toNat → s.config.keyIndexPolicy = .notPressed →
      exec (.skp x) s = .next { s with pc := s.pc + 2#16 } ∧ exec (.sknp x) s = .next { s with pc := s.pc + 4#16 }) ∧
    (15 < (s.readReg x).toNat → s.config.keyIndexPolicy = .fault →
      exec (.skp x) s = .fault .keyIndexError ∧ exec (.sknp x) s = .fault .keyIndexError)

/-- 45_keypad_timers.md R182, R184: on a tick, LD Vx,DT reads the delay timer as this tick's decrement leaves it, and
after LD DT,Vx it holds `V[x]` exactly. With LD DT,Vx in tick 0 of a run of Running ticks, LD Vz,DT in tick `m >= 1` and
no LD DT,Vx between, the value read is `max(v - m, 0)`, `v` the value set. -/
def Obligations.DelayTimerReadAndWrite : Prop :=
  (∀ (s : State) (x : Reg),
    (∃ t, exec (.ldFromDT x) s = .next t ∧ t.readReg x = s.dt ∧ s.ChangedOnlyRegs t [x]) ∧
    exec (.ldDT x) s = .next { s with dt := s.readReg x, pc := s.pc + 2#16 }) ∧
  (∀ (s : State) (x : Reg), s.mode = .running → s.pc.toNat + 1 < 4096 →
    (decodeWord s.opcodeAtPc = .ok (.ldFromDT x) →
      ∃ t, step s = .next t ∧ (t.readReg x).toNat = s.dt.toNat - 1 ∧ t.dt = t.readReg x) ∧
    (decodeWord s.opcodeAtPc = .ok (.ldDT x) → ∃ t, step s = .next t ∧ t.dt = s.readReg x)) ∧
  (∀ (f : Nat → State) (m : Nat) (x z : Reg), 1 ≤ m →
    (∀ k, k ≤ m → (f k).mode = .running ∧ step (f k) = .next (f (k + 1))) →
    decodeWord (f 0).opcodeAtPc = .ok (.ldDT x) → decodeWord (f m).opcodeAtPc = .ok (.ldFromDT z) →
    (∀ k, 0 < k → k < m → ∀ y, decodeWord (f k).opcodeAtPc ≠ .ok (.ldDT y)) →
    ((f (m + 1)).readReg z).toNat = ((f 0).readReg x).toNat - m)

/-- 45_keypad_timers.md, the rule of LD ST,Vx: at the end of the tick `ST = V[x]`, nothing else but `PC` and the other
timer's decrement has changed, and `should_beep` is `V[x] > 0`. 40_tick_engine.md section 2 (R97) and
70_reset_and_hazards.md section 3 (R226): on every tick that completes `should_beep` is `ST > 0` at its end, so a key wait
keeps it, and any other Running tick reports whether `ST` was above 1. The sampling, in a key-wait tick too, is the spec's
own decision D10 (log 10). -/
def Obligations.SoundTimerDrivesTheBeeper : Prop :=
  (∀ (s : State) (x : Reg), ∃ t, exec (.ldST x) s = .next t ∧ t.st = s.readReg x ∧
    t = { s with st := t.st, pc := s.pc + 2#16 }) ∧
  (∀ (s : State) (x : Reg) (rng : Option Byte), s.mode = .running → s.pc.toNat + 1 < 4096 →
    decodeWord s.opcodeAtPc = .ok (.ldST x) →
    ∃ r, tick rng s = .ok r ∧ r.state.st = s.readReg x ∧ r.fault = none ∧
      (r.shouldBeep = true ↔ 0 < (s.readReg x).toNat) ∧
      r.state = { s with dirty := false, st := s.readReg x, dt := r.state.dt, pc := s.pc + 2#16 }) ∧
  (∀ (s : State) (rng : Option Byte) (r : TickReport), tick rng s = .ok r → r.fault = none →
    (r.shouldBeep = true ↔ 0 < r.state.st.toNat) ∧
    (∀ t, s.mode = .awaitingKey t → r.state.st = s.st ∧ (r.shouldBeep = true ↔ 0 < s.st.toNat)) ∧
    (s.mode = .running → (∀ x, decodeWord s.opcodeAtPc ≠ .ok (.ldST x)) →
      r.state.st.toNat = s.st.toNat - 1 ∧ (r.shouldBeep = true ↔ 1 < s.st.toNat)))

/-- 45_keypad_timers.md R183: LD Vx,K starts the wait, advances `PC` in the same tick, and neither reads the keypad nor
writes `V[x]`. The next tick, in `AwaitingKey(x)`, writes the lowest pressed key and returns to `Running`, `PC` left past
the LD Vx,K and the timers left as they were; with no key pressed the machine stays in the wait for any number of ticks.
On a tick, the timers are decremented before the wait starts. -/
def Obligations.WaitForKeyStartsTheWait : Prop :=
  (∀ (s : State) (x : Reg),
    ∃ t, exec (.ldKey x) s = .next t ∧ t = { s with mode := .awaitingKey x, pc := s.pc + 2#16 } ∧
      (s.NoKey → ∀ n, Host.Core.run Sys2Proof.core (n + 1) t = .next { t with dirty := false }) ∧
      (∀ k : Nibble, s.keyDown k = true → (∀ j : Nibble, j.toNat < k.toNat → s.keyDown j = false) →
        ∃ u, step t = .next u ∧ (u.readReg x).toNat = k.toNat ∧ u.mode = .running ∧ u.pc = s.pc + 2#16 ∧
          u.dt = s.dt ∧ u.st = s.st)) ∧
  (∀ (s : State) (x : Reg), s.mode = .running → s.pc.toNat + 1 < 4096 → decodeWord s.opcodeAtPc = .ok (.ldKey x) →
    ∃ t, step s = .next t ∧ t.mode = .awaitingKey x ∧ t.pc = s.pc + 2#16 ∧ t.v = s.v ∧ t.dt.toNat = s.dt.toNat - 1 ∧
      t.st.toNat = s.st.toNat - 1)

/-! ## Frames of the whole machine -/

/-- 10_state.md section 1 (R20, R21): an instruction that completes leaves every register but those the spec lets it
write; of the flag writers, `V[F]` is exactly 0 or 1 afterwards when it is not their destination. That OR, AND and XOR
leave `V[F]` is the spec's own decision D15 (log 7). -/
def Obligations.RegistersWrittenOnlyAsListed : Prop :=
  ∀ (i : Instr) (s t : State), exec i s = .next t →
    (∀ r, writesReg i r = false → t.readReg r = s.readReg r) ∧
    (∀ x y, x ≠ .vf →
      i = .addReg x y ∨ i = .subReg x y ∨ i = .subnReg x y ∨ i = .shr x y ∨ i = .shl x y ∨ (∃ n, i = .drw x y n) →
      t.readReg .vf = 0 ∨ t.readReg .vf = 1)

/-- 20_memory.md section 3 (R58) and section 5 (R67): an instruction that completes leaves every byte of memory but
those it stores: three at `I` for LD B, `x + 1` at `I` for LD [I],Vx, none for any other, CALL and RET among them. -/
def Obligations.MemoryWrittenOnlyAsListed : Prop :=
  ∀ (i : Instr) (s t : State), exec i s = .next t →
    ∀ a, (a < (storesTo i s).1 ∨ (storesTo i s).1 + (storesTo i s).2 ≤ a) → t.byteAt a = s.byteAt a

/-- 10_state.md sections 1 to 5 and 7 (R22 to R31, R35) and 44_display.md R173: of the other state, what each
instruction that completes can change: `I` by LD I, ADD I, LD F; the call stack and `SP` by CALL, `SP` by RET; `DT` by
LD DT; `ST` by LD ST; `MODE` by LD Vx,K; the framebuffer and `DIRTY` by CLS and DRW; `KEYS` and the parameters by none.
That the memory instructions leave `I` is the spec's own decision D15 (log 7). -/
def Obligations.SpecialStateWrittenOnlyAsListed : Prop :=
  ∀ (i : Instr) (s t : State), exec i s = .next t →
    ((∀ a, i ≠ .ldI a) → (∀ x, i ≠ .addI x) → (∀ x, i ≠ .ldFont x) → t.i = s.i) ∧
    ((∀ a, i ≠ .call a) → t.stack = s.stack ∧ (i ≠ .ret → t.sp = s.sp)) ∧
    ((∀ x, i ≠ .ldDT x) → t.dt = s.dt) ∧ ((∀ x, i ≠ .ldST x) → t.st = s.st) ∧
    ((∀ x, i ≠ .ldKey x) → t.mode = s.mode) ∧
    (i ≠ .cls → (∀ x y n, i ≠ .drw x y n) → t.fb = s.fb ∧ t.dirty = s.dirty) ∧
    t.keys = s.keys ∧ t.config = s.config

/-- 40_tick_engine.md section 2 (R96): which instruction returns which directive: only JP, CALL, RET and JP V0 leave `PC`
other than 2 or 4 further, and only the six skips can leave it 4 further. -/
def Obligations.DirectivesAsListed : Prop :=
  ∀ (i : Instr) (s t : State), exec i s = .next t →
    i ≠ .ret → (∀ a, i ≠ .jp a) → (∀ a, i ≠ .call a) → (∀ a, i ≠ .jpV0 a) →
    t.pc = s.pc + 2#16 ∨ (t.pc = s.pc + 4#16 ∧
      ((∃ x k, i = .seImm x k) ∨ (∃ x k, i = .sneImm x k) ∨ (∃ x y, i = .seReg x y) ∨ (∃ x y, i = .sneReg x y) ∨
        (∃ x, i = .skp x) ∨ (∃ x, i = .sknp x)))

/-- 44_display.md R173, 10_state.md R27, R31, R29: hidden state. No instruction but DRW reads the
framebuffer (CLS overwrites it), none reads `ST`, `DIRTY` or `MODE`: with another value in one of them, an instruction
does exactly the same to everything else. -/
def Obligations.HiddenStateIsNotRead : Prop :=
  (∀ (i : Instr) (s : State) (fb : Framebuffer), i ≠ .cls → (∀ x y n, i ≠ .drw x y n) →
    exec i { s with fb := fb } = mapNext (fun t => { t with fb := fb }) (exec i s)) ∧
  (∀ (i : Instr) (s : State) (st : Byte), (∀ x, i ≠ .ldST x) →
    exec i { s with st := st } = mapNext (fun t => { t with st := st }) (exec i s)) ∧
  (∀ (i : Instr) (s : State) (d : Bool), i ≠ .cls → (∀ x y n, i ≠ .drw x y n) →
    exec i { s with dirty := d } = mapNext (fun t => { t with dirty := d }) (exec i s)) ∧
  (∀ (i : Instr) (s : State) (m : Mode), (∀ x, i ≠ .ldKey x) →
    exec i { s with mode := m } = mapNext (fun t => { t with mode := m }) (exec i s))

/-- 10_state.md R28, 60_exceptions.md R202: the keypad is read by SKP and SKNP alone among the instructions: with other
keys down, every other instruction does exactly the same to everything else. -/
def Obligations.OnlyKeySkipsReadTheKeypad : Prop :=
  ∀ (i : Instr) (s : State) (keys : Vector Bool 16), (∀ x, i ≠ .skp x) → (∀ x, i ≠ .sknp x) →
    exec i { s with keys := keys } = mapNext (fun t => { t with keys := keys }) (exec i s)

/-! ## Host interface -/

/-- 20_memory.md R64: `load` writes byte `j` of the sequence at `0x200 + j` while that is below 4096, drops the rest, and
changes nothing else. -/
def Obligations.LoadCopiesAndTruncates : Prop :=
  ∀ (s : State) (bytes : List Byte),
    (∀ j (h : j < bytes.length), 0x200 + j < 4096 → (s.load bytes).byteAt (0x200 + j) = bytes[j]) ∧
    (∀ a, (a < 0x200 ∨ 0x200 + bytes.length ≤ a ∨ 4096 ≤ a) → (s.load bytes).byteAt a = s.byteAt a) ∧
    s.load bytes = { s with mem := (s.load bytes).mem }

/-- 60_exceptions.md R205: `set_key` and `unset_key` set the level of one key for an index 0 to 15, do nothing for any
other integer, change nothing but `KEYS`, and are idempotent. -/
def Obligations.KeyOperationsSetLevels : Prop :=
  ∀ (s : State) (i : Int),
    (∀ k : Nibble, i = k.toNat →
      (s.setKey i).keyDown k = true ∧ (s.unsetKey i).keyDown k = false ∧
      ∀ j, j ≠ k → (s.setKey i).keyDown j = s.keyDown j ∧ (s.unsetKey i).keyDown j = s.keyDown j) ∧
    (i < 0 ∨ 15 < i → s.setKey i = s ∧ s.unsetKey i = s) ∧
    s.setKey i = { s with keys := (s.setKey i).keys } ∧ s.unsetKey i = { s with keys := (s.unsetKey i).keys } ∧
    (s.setKey i).setKey i = s.setKey i ∧ (s.unsetKey i).unsetKey i = s.unsetKey i

/-- 60_exceptions.md R206: the view of the framebuffer has 2048 elements, and element `y*64 + x` is `FB[y][x]` as 0 or
1. -/
def Obligations.FramebufferViewIsRowMajor : Prop :=
  ∀ s : State, s.view.fb.length = 2048 ∧
    ∀ y x, y < 32 → x < 64 → s.view.fb[y * 64 + x]? = some (if fbPixel s.fb y x = true then 1 else 0)
end

