-- ==== Sys2Proof/Laws/State.lean ====
section
/-! SUPPORT. For every update of the state, what each field and each read is after it. -/

namespace Sys2Proof.Machine

variable (s : State)

/-! ### writeReg -/

@[simp] theorem State.writeReg_v (x : Reg) (b : Byte) : (s.writeReg x b).v = s.v.set x.toNat b x.isLt := rfl
@[simp] theorem State.writeReg_i (x : Reg) (b : Byte) : (s.writeReg x b).i = s.i := rfl
@[simp] theorem State.writeReg_pc (x : Reg) (b : Byte) : (s.writeReg x b).pc = s.pc := rfl
@[simp] theorem State.writeReg_stack (x : Reg) (b : Byte) : (s.writeReg x b).stack = s.stack := rfl
@[simp] theorem State.writeReg_sp (x : Reg) (b : Byte) : (s.writeReg x b).sp = s.sp := rfl
@[simp] theorem State.writeReg_dt (x : Reg) (b : Byte) : (s.writeReg x b).dt = s.dt := rfl
@[simp] theorem State.writeReg_st (x : Reg) (b : Byte) : (s.writeReg x b).st = s.st := rfl
@[simp] theorem State.writeReg_keys (x : Reg) (b : Byte) : (s.writeReg x b).keys = s.keys := rfl
@[simp] theorem State.writeReg_mode (x : Reg) (b : Byte) : (s.writeReg x b).mode = s.mode := rfl
@[simp] theorem State.writeReg_fb (x : Reg) (b : Byte) : (s.writeReg x b).fb = s.fb := rfl
@[simp] theorem State.writeReg_dirty (x : Reg) (b : Byte) : (s.writeReg x b).dirty = s.dirty := rfl
@[simp] theorem State.writeReg_mem (x : Reg) (b : Byte) : (s.writeReg x b).mem = s.mem := rfl
@[simp] theorem State.writeReg_config (x : Reg) (b : Byte) : (s.writeReg x b).config = s.config := rfl
@[simp] theorem State.writeReg_rngIn (x : Reg) (b : Byte) : (s.writeReg x b).rngIn = s.rngIn := rfl
@[simp] theorem State.writeReg_rngDraws (x : Reg) (b : Byte) : (s.writeReg x b).rngDraws = s.rngDraws := rfl
@[simp] theorem State.writeReg_byteAt (x : Reg) (b : Byte) (c : Nat) : (s.writeReg x b).byteAt c = s.byteAt c :=
  rfl
@[simp] theorem State.writeReg_keyDown (x : Reg) (b : Byte) (k : Nibble) : (s.writeReg x b).keyDown k = s.keyDown k :=
  rfl
@[simp] theorem State.writeReg_indexBase (x : Reg) (b : Byte) : (s.writeReg x b).indexBase = s.indexBase := rfl

/-! ### writeI -/

@[simp] theorem State.writeI_v (a : Word) : (s.writeI a).v = s.v := rfl
@[simp] theorem State.writeI_i (a : Word) : (s.writeI a).i = a := rfl
@[simp] theorem State.writeI_pc (a : Word) : (s.writeI a).pc = s.pc := rfl
@[simp] theorem State.writeI_stack (a : Word) : (s.writeI a).stack = s.stack := rfl
@[simp] theorem State.writeI_sp (a : Word) : (s.writeI a).sp = s.sp := rfl
@[simp] theorem State.writeI_dt (a : Word) : (s.writeI a).dt = s.dt := rfl
@[simp] theorem State.writeI_st (a : Word) : (s.writeI a).st = s.st := rfl
@[simp] theorem State.writeI_keys (a : Word) : (s.writeI a).keys = s.keys := rfl
@[simp] theorem State.writeI_mode (a : Word) : (s.writeI a).mode = s.mode := rfl
@[simp] theorem State.writeI_fb (a : Word) : (s.writeI a).fb = s.fb := rfl
@[simp] theorem State.writeI_dirty (a : Word) : (s.writeI a).dirty = s.dirty := rfl
@[simp] theorem State.writeI_mem (a : Word) : (s.writeI a).mem = s.mem := rfl
@[simp] theorem State.writeI_config (a : Word) : (s.writeI a).config = s.config := rfl
@[simp] theorem State.writeI_rngIn (a : Word) : (s.writeI a).rngIn = s.rngIn := rfl
@[simp] theorem State.writeI_rngDraws (a : Word) : (s.writeI a).rngDraws = s.rngDraws := rfl
@[simp] theorem State.writeI_readReg (a : Word) (r : Reg) : (s.writeI a).readReg r = s.readReg r := rfl
@[simp] theorem State.writeI_byteAt (a : Word) (c : Nat) : (s.writeI a).byteAt c = s.byteAt c := rfl
@[simp] theorem State.writeI_keyDown (a : Word) (k : Nibble) : (s.writeI a).keyDown k = s.keyDown k := rfl

/-! ### writeDT -/

@[simp] theorem State.writeDT_v (b : Byte) : (s.writeDT b).v = s.v := rfl
@[simp] theorem State.writeDT_i (b : Byte) : (s.writeDT b).i = s.i := rfl
@[simp] theorem State.writeDT_pc (b : Byte) : (s.writeDT b).pc = s.pc := rfl
@[simp] theorem State.writeDT_stack (b : Byte) : (s.writeDT b).stack = s.stack := rfl
@[simp] theorem State.writeDT_sp (b : Byte) : (s.writeDT b).sp = s.sp := rfl
@[simp] theorem State.writeDT_dt (b : Byte) : (s.writeDT b).dt = b := rfl
@[simp] theorem State.writeDT_st (b : Byte) : (s.writeDT b).st = s.st := rfl
@[simp] theorem State.writeDT_keys (b : Byte) : (s.writeDT b).keys = s.keys := rfl
@[simp] theorem State.writeDT_mode (b : Byte) : (s.writeDT b).mode = s.mode := rfl
@[simp] theorem State.writeDT_fb (b : Byte) : (s.writeDT b).fb = s.fb := rfl
@[simp] theorem State.writeDT_dirty (b : Byte) : (s.writeDT b).dirty = s.dirty := rfl
@[simp] theorem State.writeDT_mem (b : Byte) : (s.writeDT b).mem = s.mem := rfl
@[simp] theorem State.writeDT_config (b : Byte) : (s.writeDT b).config = s.config := rfl
@[simp] theorem State.writeDT_rngIn (b : Byte) : (s.writeDT b).rngIn = s.rngIn := rfl
@[simp] theorem State.writeDT_rngDraws (b : Byte) : (s.writeDT b).rngDraws = s.rngDraws := rfl
@[simp] theorem State.writeDT_readReg (b : Byte) (r : Reg) : (s.writeDT b).readReg r = s.readReg r := rfl
@[simp] theorem State.writeDT_byteAt (b : Byte) (c : Nat) : (s.writeDT b).byteAt c = s.byteAt c := rfl
@[simp] theorem State.writeDT_keyDown (b : Byte) (k : Nibble) : (s.writeDT b).keyDown k = s.keyDown k := rfl
@[simp] theorem State.writeDT_indexBase (b : Byte) : (s.writeDT b).indexBase = s.indexBase := rfl

/-! ### writeST -/

@[simp] theorem State.writeST_v (b : Byte) : (s.writeST b).v = s.v := rfl
@[simp] theorem State.writeST_i (b : Byte) : (s.writeST b).i = s.i := rfl
@[simp] theorem State.writeST_pc (b : Byte) : (s.writeST b).pc = s.pc := rfl
@[simp] theorem State.writeST_stack (b : Byte) : (s.writeST b).stack = s.stack := rfl
@[simp] theorem State.writeST_sp (b : Byte) : (s.writeST b).sp = s.sp := rfl
@[simp] theorem State.writeST_dt (b : Byte) : (s.writeST b).dt = s.dt := rfl
@[simp] theorem State.writeST_st (b : Byte) : (s.writeST b).st = b := rfl
@[simp] theorem State.writeST_keys (b : Byte) : (s.writeST b).keys = s.keys := rfl
@[simp] theorem State.writeST_mode (b : Byte) : (s.writeST b).mode = s.mode := rfl
@[simp] theorem State.writeST_fb (b : Byte) : (s.writeST b).fb = s.fb := rfl
@[simp] theorem State.writeST_dirty (b : Byte) : (s.writeST b).dirty = s.dirty := rfl
@[simp] theorem State.writeST_mem (b : Byte) : (s.writeST b).mem = s.mem := rfl
@[simp] theorem State.writeST_config (b : Byte) : (s.writeST b).config = s.config := rfl
@[simp] theorem State.writeST_rngIn (b : Byte) : (s.writeST b).rngIn = s.rngIn := rfl
@[simp] theorem State.writeST_rngDraws (b : Byte) : (s.writeST b).rngDraws = s.rngDraws := rfl
@[simp] theorem State.writeST_readReg (b : Byte) (r : Reg) : (s.writeST b).readReg r = s.readReg r := rfl
@[simp] theorem State.writeST_byteAt (b : Byte) (c : Nat) : (s.writeST b).byteAt c = s.byteAt c := rfl
@[simp] theorem State.writeST_keyDown (b : Byte) (k : Nibble) : (s.writeST b).keyDown k = s.keyDown k := rfl
@[simp] theorem State.writeST_indexBase (b : Byte) : (s.writeST b).indexBase = s.indexBase := rfl

/-! ### writeMode -/

@[simp] theorem State.writeMode_v (m : Mode) : (s.writeMode m).v = s.v := rfl
@[simp] theorem State.writeMode_i (m : Mode) : (s.writeMode m).i = s.i := rfl
@[simp] theorem State.writeMode_pc (m : Mode) : (s.writeMode m).pc = s.pc := rfl
@[simp] theorem State.writeMode_stack (m : Mode) : (s.writeMode m).stack = s.stack := rfl
@[simp] theorem State.writeMode_sp (m : Mode) : (s.writeMode m).sp = s.sp := rfl
@[simp] theorem State.writeMode_dt (m : Mode) : (s.writeMode m).dt = s.dt := rfl
@[simp] theorem State.writeMode_st (m : Mode) : (s.writeMode m).st = s.st := rfl
@[simp] theorem State.writeMode_keys (m : Mode) : (s.writeMode m).keys = s.keys := rfl
@[simp] theorem State.writeMode_mode (m : Mode) : (s.writeMode m).mode = m := rfl
@[simp] theorem State.writeMode_fb (m : Mode) : (s.writeMode m).fb = s.fb := rfl
@[simp] theorem State.writeMode_dirty (m : Mode) : (s.writeMode m).dirty = s.dirty := rfl
@[simp] theorem State.writeMode_mem (m : Mode) : (s.writeMode m).mem = s.mem := rfl
@[simp] theorem State.writeMode_config (m : Mode) : (s.writeMode m).config = s.config := rfl
@[simp] theorem State.writeMode_rngIn (m : Mode) : (s.writeMode m).rngIn = s.rngIn := rfl
@[simp] theorem State.writeMode_rngDraws (m : Mode) : (s.writeMode m).rngDraws = s.rngDraws := rfl
@[simp] theorem State.writeMode_readReg (m : Mode) (r : Reg) : (s.writeMode m).readReg r = s.readReg r := rfl
@[simp] theorem State.writeMode_byteAt (m : Mode) (c : Nat) : (s.writeMode m).byteAt c = s.byteAt c := rfl
@[simp] theorem State.writeMode_keyDown (m : Mode) (k : Nibble) : (s.writeMode m).keyDown k = s.keyDown k := rfl
@[simp] theorem State.writeMode_indexBase (m : Mode) : (s.writeMode m).indexBase = s.indexBase := rfl

/-! ### setByte -/

@[simp] theorem State.setByte_v (a : Nat) (b : Byte) : (s.setByte a b).v = s.v := rfl
@[simp] theorem State.setByte_i (a : Nat) (b : Byte) : (s.setByte a b).i = s.i := rfl
@[simp] theorem State.setByte_pc (a : Nat) (b : Byte) : (s.setByte a b).pc = s.pc := rfl
@[simp] theorem State.setByte_stack (a : Nat) (b : Byte) : (s.setByte a b).stack = s.stack := rfl
@[simp] theorem State.setByte_sp (a : Nat) (b : Byte) : (s.setByte a b).sp = s.sp := rfl
@[simp] theorem State.setByte_dt (a : Nat) (b : Byte) : (s.setByte a b).dt = s.dt := rfl
@[simp] theorem State.setByte_st (a : Nat) (b : Byte) : (s.setByte a b).st = s.st := rfl
@[simp] theorem State.setByte_keys (a : Nat) (b : Byte) : (s.setByte a b).keys = s.keys := rfl
@[simp] theorem State.setByte_mode (a : Nat) (b : Byte) : (s.setByte a b).mode = s.mode := rfl
@[simp] theorem State.setByte_fb (a : Nat) (b : Byte) : (s.setByte a b).fb = s.fb := rfl
@[simp] theorem State.setByte_dirty (a : Nat) (b : Byte) : (s.setByte a b).dirty = s.dirty := rfl
@[simp] theorem State.setByte_mem (a : Nat) (b : Byte) : (s.setByte a b).mem = Memory.store s.config.font s.mem a b :=
  rfl
@[simp] theorem State.setByte_config (a : Nat) (b : Byte) : (s.setByte a b).config = s.config := rfl
@[simp] theorem State.setByte_rngIn (a : Nat) (b : Byte) : (s.setByte a b).rngIn = s.rngIn := rfl
@[simp] theorem State.setByte_rngDraws (a : Nat) (b : Byte) : (s.setByte a b).rngDraws = s.rngDraws := rfl
@[simp] theorem State.setByte_readReg (a : Nat) (b : Byte) (r : Reg) : (s.setByte a b).readReg r = s.readReg r :=
  rfl
@[simp] theorem State.setByte_keyDown (a : Nat) (b : Byte) (k : Nibble) : (s.setByte a b).keyDown k = s.keyDown k :=
  rfl
@[simp] theorem State.setByte_indexBase (a : Nat) (b : Byte) : (s.setByte a b).indexBase = s.indexBase := rfl

/-! ### present -/

@[simp] theorem State.present_v (g : Framebuffer) : (s.present g).v = s.v := rfl
@[simp] theorem State.present_i (g : Framebuffer) : (s.present g).i = s.i := rfl
@[simp] theorem State.present_pc (g : Framebuffer) : (s.present g).pc = s.pc := rfl
@[simp] theorem State.present_stack (g : Framebuffer) : (s.present g).stack = s.stack := rfl
@[simp] theorem State.present_sp (g : Framebuffer) : (s.present g).sp = s.sp := rfl
@[simp] theorem State.present_dt (g : Framebuffer) : (s.present g).dt = s.dt := rfl
@[simp] theorem State.present_st (g : Framebuffer) : (s.present g).st = s.st := rfl
@[simp] theorem State.present_keys (g : Framebuffer) : (s.present g).keys = s.keys := rfl
@[simp] theorem State.present_mode (g : Framebuffer) : (s.present g).mode = s.mode := rfl
@[simp] theorem State.present_fb (g : Framebuffer) : (s.present g).fb = g := rfl
@[simp] theorem State.present_dirty (g : Framebuffer) : (s.present g).dirty = true := rfl
@[simp] theorem State.present_mem (g : Framebuffer) : (s.present g).mem = s.mem := rfl
@[simp] theorem State.present_config (g : Framebuffer) : (s.present g).config = s.config := rfl
@[simp] theorem State.present_rngIn (g : Framebuffer) : (s.present g).rngIn = s.rngIn := rfl
@[simp] theorem State.present_rngDraws (g : Framebuffer) : (s.present g).rngDraws = s.rngDraws := rfl
@[simp] theorem State.present_readReg (g : Framebuffer) (r : Reg) : (s.present g).readReg r = s.readReg r := rfl
@[simp] theorem State.present_byteAt (g : Framebuffer) (c : Nat) : (s.present g).byteAt c = s.byteAt c := rfl
@[simp] theorem State.present_keyDown (g : Framebuffer) (k : Nibble) : (s.present g).keyDown k = s.keyDown k := rfl
@[simp] theorem State.present_indexBase (g : Framebuffer) : (s.present g).indexBase = s.indexBase := rfl

/-! ### withRng -/

@[simp] theorem State.withRng_v (l : List (Option Byte)) : (s.withRng l).v = s.v := rfl
@[simp] theorem State.withRng_i (l : List (Option Byte)) : (s.withRng l).i = s.i := rfl
@[simp] theorem State.withRng_pc (l : List (Option Byte)) : (s.withRng l).pc = s.pc := rfl
@[simp] theorem State.withRng_stack (l : List (Option Byte)) : (s.withRng l).stack = s.stack := rfl
@[simp] theorem State.withRng_sp (l : List (Option Byte)) : (s.withRng l).sp = s.sp := rfl
@[simp] theorem State.withRng_dt (l : List (Option Byte)) : (s.withRng l).dt = s.dt := rfl
@[simp] theorem State.withRng_st (l : List (Option Byte)) : (s.withRng l).st = s.st := rfl
@[simp] theorem State.withRng_keys (l : List (Option Byte)) : (s.withRng l).keys = s.keys := rfl
@[simp] theorem State.withRng_mode (l : List (Option Byte)) : (s.withRng l).mode = s.mode := rfl
@[simp] theorem State.withRng_fb (l : List (Option Byte)) : (s.withRng l).fb = s.fb := rfl
@[simp] theorem State.withRng_dirty (l : List (Option Byte)) : (s.withRng l).dirty = s.dirty := rfl
@[simp] theorem State.withRng_mem (l : List (Option Byte)) : (s.withRng l).mem = s.mem := rfl
@[simp] theorem State.withRng_config (l : List (Option Byte)) : (s.withRng l).config = s.config := rfl
@[simp] theorem State.withRng_rngIn (l : List (Option Byte)) : (s.withRng l).rngIn = l := rfl
@[simp] theorem State.withRng_rngDraws (l : List (Option Byte)) : (s.withRng l).rngDraws = s.rngDraws := rfl
@[simp] theorem State.withRng_readReg (l : List (Option Byte)) (r : Reg) : (s.withRng l).readReg r = s.readReg r :=
  rfl
@[simp] theorem State.withRng_byteAt (l : List (Option Byte)) (c : Nat) : (s.withRng l).byteAt c = s.byteAt c :=
  rfl
@[simp] theorem State.withRng_keyDown (l : List (Option Byte)) (k : Nibble) : (s.withRng l).keyDown k = s.keyDown k :=
  rfl
@[simp] theorem State.withRng_indexBase (l : List (Option Byte)) : (s.withRng l).indexBase = s.indexBase := rfl

/-! ### resetDirty -/

@[simp] theorem State.resetDirty_v : (s.resetDirty).v = s.v := rfl
@[simp] theorem State.resetDirty_i : (s.resetDirty).i = s.i := rfl
@[simp] theorem State.resetDirty_pc : (s.resetDirty).pc = s.pc := rfl
@[simp] theorem State.resetDirty_stack : (s.resetDirty).stack = s.stack := rfl
@[simp] theorem State.resetDirty_sp : (s.resetDirty).sp = s.sp := rfl
@[simp] theorem State.resetDirty_dt : (s.resetDirty).dt = s.dt := rfl
@[simp] theorem State.resetDirty_st : (s.resetDirty).st = s.st := rfl
@[simp] theorem State.resetDirty_keys : (s.resetDirty).keys = s.keys := rfl
@[simp] theorem State.resetDirty_mode : (s.resetDirty).mode = s.mode := rfl
@[simp] theorem State.resetDirty_fb : (s.resetDirty).fb = s.fb := rfl
@[simp] theorem State.resetDirty_dirty : (s.resetDirty).dirty = false := rfl
@[simp] theorem State.resetDirty_mem : (s.resetDirty).mem = s.mem := rfl
@[simp] theorem State.resetDirty_config : (s.resetDirty).config = s.config := rfl
@[simp] theorem State.resetDirty_rngIn : (s.resetDirty).rngIn = s.rngIn := rfl
@[simp] theorem State.resetDirty_rngDraws : (s.resetDirty).rngDraws = s.rngDraws := rfl
@[simp] theorem State.resetDirty_readReg (r : Reg) : (s.resetDirty).readReg r = s.readReg r := rfl
@[simp] theorem State.resetDirty_byteAt (c : Nat) : (s.resetDirty).byteAt c = s.byteAt c := rfl
@[simp] theorem State.resetDirty_keyDown (k : Nibble) : (s.resetDirty).keyDown k = s.keyDown k := rfl
@[simp] theorem State.resetDirty_indexBase : (s.resetDirty).indexBase = s.indexBase := rfl

/-! ### decrementTimers -/

@[simp] theorem State.decrementTimers_v : (s.decrementTimers).v = s.v := rfl
@[simp] theorem State.decrementTimers_i : (s.decrementTimers).i = s.i := rfl
@[simp] theorem State.decrementTimers_pc : (s.decrementTimers).pc = s.pc := rfl
@[simp] theorem State.decrementTimers_stack : (s.decrementTimers).stack = s.stack := rfl
@[simp] theorem State.decrementTimers_sp : (s.decrementTimers).sp = s.sp := rfl
@[simp] theorem State.decrementTimers_dt : (s.decrementTimers).dt = timerDown s.dt := rfl
@[simp] theorem State.decrementTimers_st : (s.decrementTimers).st = timerDown s.st := rfl
@[simp] theorem State.decrementTimers_keys : (s.decrementTimers).keys = s.keys := rfl
@[simp] theorem State.decrementTimers_mode : (s.decrementTimers).mode = s.mode := rfl
@[simp] theorem State.decrementTimers_fb : (s.decrementTimers).fb = s.fb := rfl
@[simp] theorem State.decrementTimers_dirty : (s.decrementTimers).dirty = s.dirty := rfl
@[simp] theorem State.decrementTimers_mem : (s.decrementTimers).mem = s.mem := rfl
@[simp] theorem State.decrementTimers_config : (s.decrementTimers).config = s.config := rfl
@[simp] theorem State.decrementTimers_rngIn : (s.decrementTimers).rngIn = s.rngIn := rfl
@[simp] theorem State.decrementTimers_rngDraws : (s.decrementTimers).rngDraws = s.rngDraws := rfl
@[simp] theorem State.decrementTimers_readReg (r : Reg) : (s.decrementTimers).readReg r = s.readReg r := rfl
@[simp] theorem State.decrementTimers_byteAt (c : Nat) : (s.decrementTimers).byteAt c = s.byteAt c := rfl
@[simp] theorem State.decrementTimers_keyDown (k : Nibble) : (s.decrementTimers).keyDown k = s.keyDown k := rfl
@[simp] theorem State.decrementTimers_indexBase : (s.decrementTimers).indexBase = s.indexBase := rfl

/-! ### beginRunning -/

@[simp] theorem State.beginRunning_v : (s.beginRunning).v = s.v := rfl
@[simp] theorem State.beginRunning_i : (s.beginRunning).i = s.i := rfl
@[simp] theorem State.beginRunning_pc : (s.beginRunning).pc = s.pc := rfl
@[simp] theorem State.beginRunning_stack : (s.beginRunning).stack = s.stack := rfl
@[simp] theorem State.beginRunning_sp : (s.beginRunning).sp = s.sp := rfl
@[simp] theorem State.beginRunning_dt : (s.beginRunning).dt = timerDown s.dt := rfl
@[simp] theorem State.beginRunning_st : (s.beginRunning).st = timerDown s.st := rfl
@[simp] theorem State.beginRunning_keys : (s.beginRunning).keys = s.keys := rfl
@[simp] theorem State.beginRunning_mode : (s.beginRunning).mode = s.mode := rfl
@[simp] theorem State.beginRunning_fb : (s.beginRunning).fb = s.fb := rfl
@[simp] theorem State.beginRunning_dirty : (s.beginRunning).dirty = false := rfl
@[simp] theorem State.beginRunning_mem : (s.beginRunning).mem = s.mem := rfl
@[simp] theorem State.beginRunning_config : (s.beginRunning).config = s.config := rfl
@[simp] theorem State.beginRunning_rngIn : (s.beginRunning).rngIn = s.rngIn := rfl
@[simp] theorem State.beginRunning_rngDraws : (s.beginRunning).rngDraws = s.rngDraws := rfl
@[simp] theorem State.beginRunning_readReg (r : Reg) : (s.beginRunning).readReg r = s.readReg r := rfl
@[simp] theorem State.beginRunning_byteAt (c : Nat) : (s.beginRunning).byteAt c = s.byteAt c := rfl
@[simp] theorem State.beginRunning_keyDown (k : Nibble) : (s.beginRunning).keyDown k = s.keyDown k := rfl
@[simp] theorem State.beginRunning_indexBase : (s.beginRunning).indexBase = s.indexBase := rfl

/-! ### applyDirective -/

@[simp] theorem State.applyDirective_v (d : Directive) : (s.applyDirective d).v = s.v := by cases d <;> rfl
@[simp] theorem State.applyDirective_i (d : Directive) : (s.applyDirective d).i = s.i := by cases d <;> rfl
@[simp] theorem State.applyDirective_stack (d : Directive) : (s.applyDirective d).stack = s.stack :=
  by cases d <;> rfl
@[simp] theorem State.applyDirective_sp (d : Directive) : (s.applyDirective d).sp = s.sp := by cases d <;> rfl
@[simp] theorem State.applyDirective_dt (d : Directive) : (s.applyDirective d).dt = s.dt := by cases d <;> rfl
@[simp] theorem State.applyDirective_st (d : Directive) : (s.applyDirective d).st = s.st := by cases d <;> rfl
@[simp] theorem State.applyDirective_keys (d : Directive) : (s.applyDirective d).keys = s.keys :=
  by cases d <;> rfl
@[simp] theorem State.applyDirective_mode (d : Directive) : (s.applyDirective d).mode = s.mode :=
  by cases d <;> rfl
@[simp] theorem State.applyDirective_fb (d : Directive) : (s.applyDirective d).fb = s.fb := by cases d <;> rfl
@[simp] theorem State.applyDirective_dirty (d : Directive) : (s.applyDirective d).dirty = s.dirty :=
  by cases d <;> rfl
@[simp] theorem State.applyDirective_mem (d : Directive) : (s.applyDirective d).mem = s.mem := by cases d <;> rfl
@[simp] theorem State.applyDirective_config (d : Directive) : (s.applyDirective d).config = s.config :=
  by cases d <;> rfl
@[simp] theorem State.applyDirective_rngIn (d : Directive) : (s.applyDirective d).rngIn = s.rngIn :=
  by cases d <;> rfl
@[simp] theorem State.applyDirective_rngDraws (d : Directive) : (s.applyDirective d).rngDraws = s.rngDraws :=
  by cases d <;> rfl
@[simp] theorem State.applyDirective_readReg (d : Directive) (r : Reg) : (s.applyDirective d).readReg r = s.readReg r :=
  by cases d <;> rfl
@[simp] theorem State.applyDirective_byteAt (d : Directive) (c : Nat) : (s.applyDirective d).byteAt c = s.byteAt c :=
  by cases d <;> rfl
@[simp] theorem State.applyDirective_keyDown (d : Directive) (k : Nibble) : (s.applyDirective d).keyDown k = s.keyDown k :=
  by cases d <;> rfl
@[simp] theorem State.applyDirective_indexBase (d : Directive) : (s.applyDirective d).indexBase = s.indexBase :=
  by cases d <;> rfl

/-! ### drawDone -/

@[simp] theorem State.drawDone_v : (s.drawDone).v = s.v := by unfold State.drawDone; split <;> rfl
@[simp] theorem State.drawDone_i : (s.drawDone).i = s.i := by unfold State.drawDone; split <;> rfl
@[simp] theorem State.drawDone_pc : (s.drawDone).pc = s.pc := by unfold State.drawDone; split <;> rfl
@[simp] theorem State.drawDone_stack : (s.drawDone).stack = s.stack := by unfold State.drawDone; split <;> rfl
@[simp] theorem State.drawDone_sp : (s.drawDone).sp = s.sp := by unfold State.drawDone; split <;> rfl
@[simp] theorem State.drawDone_dt : (s.drawDone).dt = s.dt := by unfold State.drawDone; split <;> rfl
@[simp] theorem State.drawDone_st : (s.drawDone).st = s.st := by unfold State.drawDone; split <;> rfl
@[simp] theorem State.drawDone_keys : (s.drawDone).keys = s.keys := by unfold State.drawDone; split <;> rfl
@[simp] theorem State.drawDone_mode : (s.drawDone).mode = s.mode := by unfold State.drawDone; split <;> rfl
@[simp] theorem State.drawDone_fb : (s.drawDone).fb = s.fb := by unfold State.drawDone; split <;> rfl
@[simp] theorem State.drawDone_dirty : (s.drawDone).dirty = s.dirty := by unfold State.drawDone; split <;> rfl
@[simp] theorem State.drawDone_mem : (s.drawDone).mem = s.mem := by unfold State.drawDone; split <;> rfl
@[simp] theorem State.drawDone_config : (s.drawDone).config = s.config := by unfold State.drawDone; split <;> rfl
@[simp] theorem State.drawDone_readReg (r : Reg) : (s.drawDone).readReg r = s.readReg r :=
  by unfold State.drawDone; split <;> rfl
@[simp] theorem State.drawDone_byteAt (c : Nat) : (s.drawDone).byteAt c = s.byteAt c :=
  by unfold State.drawDone; split <;> rfl
@[simp] theorem State.drawDone_keyDown (k : Nibble) : (s.drawDone).keyDown k = s.keyDown k :=
  by unfold State.drawDone; split <;> rfl
@[simp] theorem State.drawDone_indexBase : (s.drawDone).indexBase = s.indexBase :=
  by unfold State.drawDone; split <;> rfl

/-! ### setBytes -/

@[simp] theorem State.setBytes_v (a : Nat) (l : List Byte) : (s.setBytes a l).v = s.v := by
  induction l generalizing s a with
  | nil => rfl
  | cons b rest ih => simp [State.setBytes, ih]
@[simp] theorem State.setBytes_i (a : Nat) (l : List Byte) : (s.setBytes a l).i = s.i := by
  induction l generalizing s a with
  | nil => rfl
  | cons b rest ih => simp [State.setBytes, ih]
@[simp] theorem State.setBytes_pc (a : Nat) (l : List Byte) : (s.setBytes a l).pc = s.pc := by
  induction l generalizing s a with
  | nil => rfl
  | cons b rest ih => simp [State.setBytes, ih]
@[simp] theorem State.setBytes_stack (a : Nat) (l : List Byte) : (s.setBytes a l).stack = s.stack := by
  induction l generalizing s a with
  | nil => rfl
  | cons b rest ih => simp [State.setBytes, ih]
@[simp] theorem State.setBytes_sp (a : Nat) (l : List Byte) : (s.setBytes a l).sp = s.sp := by
  induction l generalizing s a with
  | nil => rfl
  | cons b rest ih => simp [State.setBytes, ih]
@[simp] theorem State.setBytes_dt (a : Nat) (l : List Byte) : (s.setBytes a l).dt = s.dt := by
  induction l generalizing s a with
  | nil => rfl
  | cons b rest ih => simp [State.setBytes, ih]
@[simp] theorem State.setBytes_st (a : Nat) (l : List Byte) : (s.setBytes a l).st = s.st := by
  induction l generalizing s a with
  | nil => rfl
  | cons b rest ih => simp [State.setBytes, ih]
@[simp] theorem State.setBytes_keys (a : Nat) (l : List Byte) : (s.setBytes a l).keys = s.keys := by
  induction l generalizing s a with
  | nil => rfl
  | cons b rest ih => simp [State.setBytes, ih]
@[simp] theorem State.setBytes_mode (a : Nat) (l : List Byte) : (s.setBytes a l).mode = s.mode := by
  induction l generalizing s a with
  | nil => rfl
  | cons b rest ih => simp [State.setBytes, ih]
@[simp] theorem State.setBytes_fb (a : Nat) (l : List Byte) : (s.setBytes a l).fb = s.fb := by
  induction l generalizing s a with
  | nil => rfl
  | cons b rest ih => simp [State.setBytes, ih]
@[simp] theorem State.setBytes_dirty (a : Nat) (l : List Byte) : (s.setBytes a l).dirty = s.dirty := by
  induction l generalizing s a with
  | nil => rfl
  | cons b rest ih => simp [State.setBytes, ih]
@[simp] theorem State.setBytes_config (a : Nat) (l : List Byte) : (s.setBytes a l).config = s.config := by
  induction l generalizing s a with
  | nil => rfl
  | cons b rest ih => simp [State.setBytes, ih]
@[simp] theorem State.setBytes_rngIn (a : Nat) (l : List Byte) : (s.setBytes a l).rngIn = s.rngIn := by
  induction l generalizing s a with
  | nil => rfl
  | cons b rest ih => simp [State.setBytes, ih]
@[simp] theorem State.setBytes_rngDraws (a : Nat) (l : List Byte) : (s.setBytes a l).rngDraws = s.rngDraws := by
  induction l generalizing s a with
  | nil => rfl
  | cons b rest ih => simp [State.setBytes, ih]
@[simp] theorem State.setBytes_readReg (a : Nat) (l : List Byte) (r : Reg) : (s.setBytes a l).readReg r = s.readReg r := by
  induction l generalizing s a with
  | nil => rfl
  | cons b rest ih => simp [State.setBytes, ih]
@[simp] theorem State.setBytes_keyDown (a : Nat) (l : List Byte) (k : Nibble) : (s.setBytes a l).keyDown k = s.keyDown k := by
  induction l generalizing s a with
  | nil => rfl
  | cons b rest ih => simp [State.setBytes, ih]
@[simp] theorem State.setBytes_indexBase (a : Nat) (l : List Byte) : (s.setBytes a l).indexBase = s.indexBase := by
  induction l generalizing s a with
  | nil => rfl
  | cons b rest ih => simp [State.setBytes, ih]

/-! ### writeRegs -/

@[simp] theorem State.writeRegs_i (j : Nat) (l : List Byte) : (s.writeRegs j l).i = s.i := by
  induction l generalizing s j with
  | nil => rfl
  | cons b rest ih => simp [State.writeRegs, ih]
@[simp] theorem State.writeRegs_pc (j : Nat) (l : List Byte) : (s.writeRegs j l).pc = s.pc := by
  induction l generalizing s j with
  | nil => rfl
  | cons b rest ih => simp [State.writeRegs, ih]
@[simp] theorem State.writeRegs_stack (j : Nat) (l : List Byte) : (s.writeRegs j l).stack = s.stack := by
  induction l generalizing s j with
  | nil => rfl
  | cons b rest ih => simp [State.writeRegs, ih]
@[simp] theorem State.writeRegs_sp (j : Nat) (l : List Byte) : (s.writeRegs j l).sp = s.sp := by
  induction l generalizing s j with
  | nil => rfl
  | cons b rest ih => simp [State.writeRegs, ih]
@[simp] theorem State.writeRegs_dt (j : Nat) (l : List Byte) : (s.writeRegs j l).dt = s.dt := by
  induction l generalizing s j with
  | nil => rfl
  | cons b rest ih => simp [State.writeRegs, ih]
@[simp] theorem State.writeRegs_st (j : Nat) (l : List Byte) : (s.writeRegs j l).st = s.st := by
  induction l generalizing s j with
  | nil => rfl
  | cons b rest ih => simp [State.writeRegs, ih]
@[simp] theorem State.writeRegs_keys (j : Nat) (l : List Byte) : (s.writeRegs j l).keys = s.keys := by
  induction l generalizing s j with
  | nil => rfl
  | cons b rest ih => simp [State.writeRegs, ih]
@[simp] theorem State.writeRegs_mode (j : Nat) (l : List Byte) : (s.writeRegs j l).mode = s.mode := by
  induction l generalizing s j with
  | nil => rfl
  | cons b rest ih => simp [State.writeRegs, ih]
@[simp] theorem State.writeRegs_fb (j : Nat) (l : List Byte) : (s.writeRegs j l).fb = s.fb := by
  induction l generalizing s j with
  | nil => rfl
  | cons b rest ih => simp [State.writeRegs, ih]
@[simp] theorem State.writeRegs_dirty (j : Nat) (l : List Byte) : (s.writeRegs j l).dirty = s.dirty := by
  induction l generalizing s j with
  | nil => rfl
  | cons b rest ih => simp [State.writeRegs, ih]
@[simp] theorem State.writeRegs_mem (j : Nat) (l : List Byte) : (s.writeRegs j l).mem = s.mem := by
  induction l generalizing s j with
  | nil => rfl
  | cons b rest ih => simp [State.writeRegs, ih]
@[simp] theorem State.writeRegs_config (j : Nat) (l : List Byte) : (s.writeRegs j l).config = s.config := by
  induction l generalizing s j with
  | nil => rfl
  | cons b rest ih => simp [State.writeRegs, ih]
@[simp] theorem State.writeRegs_rngIn (j : Nat) (l : List Byte) : (s.writeRegs j l).rngIn = s.rngIn := by
  induction l generalizing s j with
  | nil => rfl
  | cons b rest ih => simp [State.writeRegs, ih]
@[simp] theorem State.writeRegs_rngDraws (j : Nat) (l : List Byte) : (s.writeRegs j l).rngDraws = s.rngDraws := by
  induction l generalizing s j with
  | nil => rfl
  | cons b rest ih => simp [State.writeRegs, ih]
@[simp] theorem State.writeRegs_byteAt (j : Nat) (l : List Byte) (c : Nat) : (s.writeRegs j l).byteAt c = s.byteAt c := by
  induction l generalizing s j with
  | nil => rfl
  | cons b rest ih => simp [State.writeRegs, ih]
@[simp] theorem State.writeRegs_keyDown (j : Nat) (l : List Byte) (k : Nibble) : (s.writeRegs j l).keyDown k = s.keyDown k := by
  induction l generalizing s j with
  | nil => rfl
  | cons b rest ih => simp [State.writeRegs, ih]
@[simp] theorem State.writeRegs_indexBase (j : Nat) (l : List Byte) : (s.writeRegs j l).indexBase = s.indexBase := by
  induction l generalizing s j with
  | nil => rfl
  | cons b rest ih => simp [State.writeRegs, ih]

/-- The directive `Next` (40_tick_engine.md R96). -/
@[simp] theorem State.applyDirective_next_pc : (s.applyDirective .next).pc = s.pc + 2#16 := rfl

/-- The directive `Skip` (40_tick_engine.md R96). -/
@[simp] theorem State.applyDirective_skip_pc : (s.applyDirective .skip).pc = s.pc + 4#16 := rfl

/-- The directive `Jump` (40_tick_engine.md R96). -/
@[simp] theorem State.applyDirective_jump_pc (a : Word) : (s.applyDirective (.jump a)).pc = a := rfl

/-- A conditional skip: 4 further or 2 further (41_control_flow.md R113). -/
@[simp] theorem State.applyDirective_skipIf_pc (c : Bool) :
    (s.applyDirective (skipIf c)).pc = if c = true then s.pc + 4#16 else s.pc + 2#16 := by
  cases c <;> rfl

/-- Whatever the directive, only `PC` changes. -/
theorem State.applyDirective_eq (d : Directive) : s.applyDirective d = { s with pc := (s.applyDirective d).pc } := by
  cases d <;> rfl

/-- A write to a register is read back from it. -/
@[simp] theorem State.readReg_writeReg_same (x : Reg) (b : Byte) : (s.writeReg x b).readReg x = b := by
  simp [State.readReg, State.writeReg]

/-- A write to a register leaves every other register. -/
theorem State.readReg_writeReg_other {x r : Reg} (b : Byte) (h : r ≠ x) :
    (s.writeReg x b).readReg r = s.readReg r := by
  have : x.toNat ≠ r.toNat := fun e => h (BitVec.eq_of_toNat_eq e.symm)
  simp [State.readReg, State.writeReg, Vector.getElem_set_ne, this]

/-- A timer one lower, stopping at 0, as a number (40_tick_engine.md R93). -/
@[simp] theorem timerDown_toNat (t : Byte) : (timerDown t).toNat = t.toNat - 1 := by
  unfold timerDown
  split
  · next h => subst h; rfl
  · bv_omega

end Sys2Proof.Machine
end

