-- ==== Sys2Proof/Laws/Memory.lean ====
section
/-! SUPPORT. The laws of memory: a read after a write, what a write leaves, the canonical form kept, and what the
checked accesses answer (20_memory.md R52 to R56). -/

namespace Sys2Proof.Machine

/-! ## The list of bytes -/

theorem Memory.lookup_erase_same (a : Nat) (m : Memory) : Memory.lookup a (Memory.erase a m) = none := by
  induction m with
  | nil => rfl
  | cons e rest ih =>
    obtain ⟨b, w⟩ := e
    by_cases h : b = a <;> simp [Memory.erase, Memory.lookup, h, ih]

theorem Memory.lookup_erase_other {a c : Nat} (h : c ≠ a) (m : Memory) :
    Memory.lookup c (Memory.erase a m) = Memory.lookup c m := by
  induction m with
  | nil => rfl
  | cons e rest ih =>
    obtain ⟨b, w⟩ := e
    by_cases hb : b = a
    · simp [Memory.erase, Memory.lookup, hb, ih, Ne.symm h]
    · simp [Memory.erase, Memory.lookup, hb, ih]

theorem Memory.lookup_insert_same {a : Nat} {m : Memory} (v : Byte) (h : Memory.lookup a m = none) :
    Memory.lookup a (Memory.insert a v m) = some v := by
  induction m with
  | nil => simp [Memory.insert, Memory.lookup]
  | cons e rest ih =>
    obtain ⟨b, w⟩ := e
    by_cases hb : b = a
    · simp [Memory.lookup, hb] at h
    · simp only [Memory.lookup, hb, if_false] at h
      by_cases hlt : a < b <;> simp [Memory.insert, Memory.lookup, hlt, hb, ih h]

theorem Memory.lookup_insert_other {a c : Nat} (h : c ≠ a) (v : Byte) (m : Memory) :
    Memory.lookup c (Memory.insert a v m) = Memory.lookup c m := by
  induction m with
  | nil => simp [Memory.insert, Memory.lookup, Ne.symm h]
  | cons e rest ih =>
    obtain ⟨b, w⟩ := e
    by_cases hlt : a < b <;> simp [Memory.insert, Memory.lookup, hlt, ih, Ne.symm h]

/-! ## One byte -/

/-- A read after a write to the same address gives the byte written. -/
@[simp] theorem State.byteAt_setByte_same (s : State) (a : Nat) (v : Byte) : (s.setByte a v).byteAt a = v := by
  unfold State.byteAt State.setByte Memory.store
  split
  · next h => simp [Memory.lookup_erase_same, h]
  · simp [Memory.lookup_insert_same v (Memory.lookup_erase_same a s.mem)]

/-- A write leaves every other address. -/
theorem State.byteAt_setByte_other (s : State) {a c : Nat} (v : Byte) (h : c ≠ a) :
    (s.setByte a v).byteAt c = s.byteAt c := by
  unfold State.byteAt State.setByte Memory.store
  split
  · simp [Memory.lookup_erase_other h]
  · simp [Memory.lookup_insert_other h, Memory.lookup_erase_other h]

/-! ## Several bytes -/

/-- What every address reads as after bytes are stored at `a` and upwards. -/
theorem State.byteAt_setBytes (s : State) (a : Nat) (l : List Byte) (c : Nat) :
    (s.setBytes a l).byteAt c = if h : a ≤ c ∧ c - a < l.length then l[c - a]'h.2 else s.byteAt c := by
  induction l generalizing s a with
  | nil => simp [State.setBytes]
  | cons b rest ih =>
    rw [State.setBytes, ih]
    by_cases hc : c = a
    · subst hc
      simp [show ¬ c + 1 ≤ c by omega]
    · rw [State.byteAt_setByte_other _ _ hc]
      by_cases h : a + 1 ≤ c ∧ c - (a + 1) < rest.length
      · have h' : a ≤ c ∧ c - a < (b :: rest).length := by simp; omega
        rw [dif_pos h, dif_pos h']
        have : c - a = (c - (a + 1)) + 1 := by omega
        simp [this]
      · have h' : ¬ (a ≤ c ∧ c - a < (b :: rest).length) := by simp; omega
        rw [dif_neg h, dif_neg h']

/-- A stored byte is read back. -/
theorem State.byteAt_setBytes_inside (s : State) (a : Nat) (l : List Byte) {k : Nat} (h : k < l.length) :
    (s.setBytes a l).byteAt (a + k) = l[k] := by
  rw [State.byteAt_setBytes, dif_pos ⟨by omega, by omega⟩]
  congr 1
  omega

/-- An address outside the stored bytes reads as before. -/
theorem State.byteAt_setBytes_outside (s : State) (a : Nat) (l : List Byte) {c : Nat}
    (h : c < a ∨ a + l.length ≤ c) : (s.setBytes a l).byteAt c = s.byteAt c := by
  rw [State.byteAt_setBytes, dif_neg (by omega)]

/-- Storing bytes changes memory alone. -/
theorem State.setBytes_eq (s : State) (a : Nat) (l : List Byte) :
    s.setBytes a l = { s with mem := (s.setBytes a l).mem } := by
  induction l generalizing s a with
  | nil => rfl
  | cons b rest ih => rw [State.setBytes, ih]; rfl

/-! ## The canonical form -/

theorem Memory.all_erase {a : Nat} {m : Memory} {p : Host.Cell → Bool} (h : m.all p = true) :
    (Memory.erase a m).all p = true := by
  induction m with
  | nil => rfl
  | cons e rest ih =>
    obtain ⟨b, w⟩ := e
    simp only [List.all_cons, Bool.and_eq_true] at h
    by_cases hb : b = a
    · simpa [Memory.erase, hb] using ih h.2
    · simp only [Memory.erase, hb, if_false, List.all_cons, h.1, ih h.2, Bool.and_self]

theorem Memory.all_insert {a : Nat} {v : Byte} {m : Memory} {p : Host.Cell → Bool} (h : m.all p = true)
    (hv : p (a, v) = true) : (Memory.insert a v m).all p = true := by
  induction m with
  | nil => simp [Memory.insert, hv]
  | cons e rest ih =>
    obtain ⟨b, w⟩ := e
    have hc := h
    simp only [List.all_cons, Bool.and_eq_true] at h
    by_cases hlt : a < b
    · simp only [Memory.insert, hlt, if_true, List.all_cons, hv, h.1, h.2, Bool.and_self]
    · simp only [Memory.insert, hlt, if_false, List.all_cons, h.1, ih h.2, Bool.and_self]

theorem Memory.rising_erase {a : Nat} {m : Memory} (h : Memory.rising m = true) :
    Memory.rising (Memory.erase a m) = true := by
  induction m with
  | nil => rfl
  | cons e rest ih =>
    obtain ⟨b, w⟩ := e
    simp only [Memory.rising, Bool.and_eq_true] at h
    by_cases hb : b = a
    · simpa [Memory.erase, hb] using ih h.2
    · simp only [Memory.erase, hb, if_false, Memory.rising, Bool.and_eq_true]
      exact ⟨Memory.all_erase h.1, ih h.2⟩

theorem Memory.rising_insert {a : Nat} {v : Byte} {m : Memory} (h : Memory.rising m = true)
    (hn : Memory.lookup a m = none) : Memory.rising (Memory.insert a v m) = true := by
  induction m with
  | nil => rfl
  | cons e rest ih =>
    obtain ⟨b, w⟩ := e
    have hr := h
    simp only [Memory.rising, Bool.and_eq_true] at h
    by_cases hb : b = a
    · simp [Memory.lookup, hb] at hn
    · simp only [Memory.lookup, hb, if_false] at hn
      by_cases hlt : a < b
      · simp only [Memory.insert, hlt, if_true, Memory.rising, Bool.and_eq_true, List.all_cons, decide_true, true_and]
        refine ⟨?_, h⟩
        rw [List.all_eq_true] at h ⊢
        intro x hx
        have := h.1 x hx
        simp only [decide_eq_true_eq] at this ⊢
        omega
      · simp only [Memory.insert, hlt, if_false, Memory.rising, Bool.and_eq_true]
        refine ⟨Memory.all_insert h.1 ?_, ih h.2 hn⟩
        simp only [decide_eq_true_eq]
        omega

/-- Storing a byte inside the address space keeps the canonical form. -/
theorem Memory.wf_store {font : Vector Byte 80} {m : Memory} {a : Nat} (v : Byte) (h : Memory.wf font m = true)
    (ha : a < 4096) : Memory.wf font (Memory.store font m a v) = true := by
  simp only [Memory.wf, Bool.and_eq_true] at h ⊢
  unfold Memory.store
  split
  · exact ⟨Memory.rising_erase h.1, Memory.all_erase h.2⟩
  · next hv =>
    refine ⟨Memory.rising_insert (Memory.rising_erase h.1) (Memory.lookup_erase_same a m),
      Memory.all_insert (Memory.all_erase h.2) ?_⟩
    simp [ha, hv]

/-- Storing bytes inside the address space keeps the canonical form. -/
theorem State.wf_setBytes {s : State} {a : Nat} (l : List Byte) (h : Memory.wf s.config.font s.mem = true)
    (ha : a + l.length ≤ 4096) : Memory.wf s.config.font (s.setBytes a l).mem = true := by
  induction l generalizing s a with
  | nil => exact h
  | cons b rest ih =>
    rw [State.setBytes]
    simp only [List.length_cons] at ha
    exact ih (s := s.setByte a b) (Memory.wf_store b h (by omega)) (by omega)

/-! ## Checked accesses -/

theorem rangeOk_iff (a len : Nat) : rangeOk a len = true ↔ len = 0 ∨ a + len - 1 < 4096 := by
  simp [rangeOk]

/-- When the range check fails. -/
theorem rangeOk_eq_false_iff (a len : Nat) : rangeOk a len = false ↔ len ≠ 0 ∧ 4096 ≤ a + len - 1 := by
  simp [rangeOk]

/-- Everything `memRead` can answer. -/
theorem State.memRead_cases (s : State) (a len : Nat) :
    (rangeOk a len = true ∧ s.memRead a len = .ok ((List.range len).map fun k => s.byteAt (a + k))) ∨
    (rangeOk a len = false ∧ s.memRead a len = .error .memoryAccessError) := by
  unfold State.memRead
  cases rangeOk a len <;> simp

/-- Everything `memWrite` can answer. -/
theorem State.memWrite_cases (s : State) (a : Nat) (l : List Byte) :
    (rangeOk a l.length = true ∧ s.memWrite a l = .ok (s.setBytes a l)) ∨
    (rangeOk a l.length = false ∧ s.memWrite a l = .error .memoryAccessError) := by
  unfold State.memWrite
  cases rangeOk a l.length <;> simp

/-- The fetch: the two bytes at `PC`, or `MemoryAccessError` from 0xFFF on (40_tick_engine.md R94). -/
theorem State.fetch_eq (s : State) :
    s.fetch = if s.pc.toNat + 1 < 4096 then
      .ok (composeOpcode (s.byteAt s.pc.toNat) (s.byteAt (s.pc.toNat + 1))) else .error .memoryAccessError := by
  unfold State.fetch
  by_cases h : s.pc.toNat + 1 < 4096 <;> simp [rangeOk, h]

/-- The number of bytes a register dump stores. -/
@[simp] theorem State.length_readRegs (s : State) (x : Reg) : (s.readRegs x).length = x.toNat + 1 := by
  simp [State.readRegs]

/-- A checked store keeps the canonical form. -/
theorem State.wf_memWrite {s t : State} {a : Nat} {l : List Byte} (h : Memory.wf s.config.font s.mem = true)
    (ht : s.memWrite a l = .ok t) : Memory.wf t.config.font t.mem = true := by
  rcases s.memWrite_cases a l with ⟨hr, e⟩ | ⟨_, e⟩
  · rw [e] at ht
    obtain rfl : s.setBytes a l = t := Except.ok.inj ht
    rw [State.setBytes_eq]
    rw [rangeOk_iff] at hr
    rcases l with _ | ⟨b, rest⟩
    · exact h
    · exact State.wf_setBytes _ h (by simp at hr ⊢; omega)
  · rw [e] at ht; cases ht

/-- The byte a register dump stores for register `r`. -/
theorem State.getElem_readRegs (s : State) (x r : Reg) (h : r.toNat < (s.readRegs x).length) :
    (s.readRegs x)[r.toNat] = s.readReg r := by
  simp [State.readRegs]

/-- What a register holds after a register load from register `j` upwards. -/
theorem State.readReg_writeRegs (s : State) (j : Nat) (l : List Byte) (r : Reg) (h : j + l.length ≤ 16) :
    (s.writeRegs j l).readReg r =
      if hr : j ≤ r.toNat ∧ r.toNat - j < l.length then l[r.toNat - j]'hr.2 else s.readReg r := by
  induction l generalizing s j with
  | nil => simp [State.writeRegs]
  | cons b rest ih =>
    simp only [List.length_cons] at h
    have hj : (BitVec.ofNat 4 j).toNat = j := by simp; omega
    rw [State.writeRegs, ih _ _ (by omega)]
    by_cases hc : r.toNat = j
    · have hr : r = BitVec.ofNat 4 j := BitVec.eq_of_toNat_eq (by omega)
      have h1 : ¬ (j + 1 ≤ r.toNat ∧ r.toNat - (j + 1) < rest.length) := by omega
      have h2 : j ≤ r.toNat ∧ r.toNat - j < (b :: rest).length := by simp; omega
      have hb : (s.writeReg (BitVec.ofNat 4 j) b).readReg r = b := by
        rw [hr]
        exact State.readReg_writeReg_same s _ b
      rw [dif_neg h1, dif_pos h2, hb]
      simp [hc]
    · have hr : r ≠ BitVec.ofNat 4 j := fun e => hc (by rw [e, hj])
      rw [State.readReg_writeReg_other s b hr]
      by_cases h' : j + 1 ≤ r.toNat ∧ r.toNat - (j + 1) < rest.length
      · have h2 : j ≤ r.toNat ∧ r.toNat - j < (b :: rest).length := by simp; omega
        rw [dif_pos h', dif_pos h2]
        have : r.toNat - j = (r.toNat - (j + 1)) + 1 := by omega
        simp [this]
      · have h2 : ¬ (j ≤ r.toNat ∧ r.toNat - j < (b :: rest).length) := by simp; omega
        rw [dif_neg h', dif_neg h2]

end Sys2Proof.Machine
end

