-- ==== Sys2Proof/Laws/Framebuffer.lean ====
section
/-! SUPPORT. The laws of the framebuffer: a cell after a write, and what drawing a bit, a row and a sprite does to every
cell and to the collision mark (44_display.md R171, R172). -/

namespace Sys2Proof.Machine

/-- No cell is lit outside the grid. -/
theorem fbPixel_outside (fb : Framebuffer) {y x : Nat} (h : ¬ (y < 32 ∧ x < 64)) : fbPixel fb y x = false := by
  unfold fbPixel
  rw [dif_neg h]

/-- Every cell after one is written. -/
theorem fbPixel_fbSetPixel (fb : Framebuffer) (y x : Nat) (p : Bool) (cy cx : Nat) (h : y < 32 ∧ x < 64) :
    fbPixel (fbSetPixel fb y x p) cy cx = if cy = y ∧ cx = x then p else fbPixel fb cy cx := by
  unfold fbSetPixel
  rw [dif_pos h]
  by_cases hc : cy < 32 ∧ cx < 64
  · unfold fbPixel
    rw [dif_pos hc, dif_pos hc]
    by_cases hy : cy = y
    · subst hy
      by_cases hx : cx = x
      · subst hx; simp
      · simp [hx, Vector.getElem_set_ne _ _ (Ne.symm hx)]
    · simp [hy, Vector.getElem_set_ne _ _ (Ne.symm hy)]
  · rw [fbPixel_outside _ hc, fbPixel_outside _ hc]
    split <;> simp_all

/-- Two framebuffers with the same cells are the same. -/
theorem fb_ext {f g : Framebuffer} (h : ∀ y x, y < 32 → x < 64 → fbPixel f y x = fbPixel g y x) : f = g := by
  apply Vector.ext
  intro y hy
  apply Vector.ext
  intro x hx
  have := h y x hy hx
  simpa [fbPixel, hy, hx] using this

/-- A cleared framebuffer has no lit cell (44_display.md R170). -/
@[simp] theorem fbPixel_fbClear (y x : Nat) : fbPixel fbClear y x = false := by
  unfold fbPixel fbClear
  split <;> simp

/-- One sprite bit: the cell it lands on is exclusive-ored, and a lit one is a collision (44_display.md R171). -/
theorem plotBit_spec (ry cx : Nat) (bit : Bool) (c : Framebuffer × Bool) (hy : ry < 32) :
    (∀ y x, fbPixel (plotBit ry cx bit c).1 y x =
      (fbPixel c.1 y x ^^ (decide (y = ry ∧ x = cx ∧ cx < 64) && bit))) ∧
    (plotBit ry cx bit c).2 = (c.2 || (decide (cx < 64) && bit && fbPixel c.1 ry cx)) := by
  unfold plotBit
  by_cases hx : cx < 64
  · have h : ry < 32 ∧ cx < 64 := ⟨hy, hx⟩
    have hge : ¬ cx ≥ 64 := by omega
    cases bit
    · simp [hge]
    · by_cases hp : fbPixel c.1 ry cx = true
      · simp only [hge, if_false, hp, if_true]
        refine ⟨fun y x => ?_, by simp [hx]⟩
        rw [fbPixel_fbSetPixel _ _ _ _ _ _ h]
        by_cases hc : y = ry ∧ x = cx
        · obtain ⟨rfl, rfl⟩ := hc
          simp [hp, hx]
        · rw [if_neg hc]
          have : ¬ (y = ry ∧ x = cx ∧ cx < 64) := fun e => hc ⟨e.1, e.2.1⟩
          simp [this]
      · have hp' : fbPixel c.1 ry cx = false := by simpa using hp
        simp only [hge, if_false, if_true]
        rw [if_neg hp]
        refine ⟨fun y x => ?_, by simp [hp']⟩
        rw [fbPixel_fbSetPixel _ _ _ _ _ _ h]
        by_cases hc : y = ry ∧ x = cx
        · obtain ⟨rfl, rfl⟩ := hc
          simp [hp', hx]
        · rw [if_neg hc]
          have : ¬ (y = ry ∧ x = cx ∧ cx < 64) := fun e => hc ⟨e.1, e.2.1⟩
          simp [this]
  · simp [hx, Nat.le_of_not_lt hx]

/-- The bits `0` to `m - 1` of one sprite row (44_display.md R171). -/
theorem plotBits_spec (ry ox : Nat) (byte : Byte) (c : Framebuffer × Bool) (hy : ry < 32) (m : Nat) :
    let d := (List.range m).foldl (fun c b => plotBit ry (ox + b) (byte.getLsbD (7 - b)) c) c
    (∀ y x, fbPixel d.1 y x = (fbPixel c.1 y x ^^
      (decide (y = ry ∧ ox ≤ x ∧ x < ox + m ∧ x < 64) && byte.getLsbD (7 - (x - ox))))) ∧
    (d.2 = true ↔ c.2 = true ∨ ∃ x, ox ≤ x ∧ x < ox + m ∧ x < 64 ∧ byte.getLsbD (7 - (x - ox)) = true ∧
      fbPixel c.1 ry x = true) := by
  induction m with
  | zero =>
    refine ⟨fun y x => ?_, ?_⟩
    · have : ¬ (y = ry ∧ ox ≤ x ∧ x < ox + 0 ∧ x < 64) := by omega
      simp only [List.range_zero, List.foldl_nil, this, decide_false, Bool.false_and, Bool.xor_false]
    · simp only [List.range_zero, List.foldl_nil]
      exact ⟨Or.inl, fun h => h.elim id fun ⟨x, h1, h2, _⟩ => by omega⟩
  | succ m ih =>
    simp only [List.range_succ, List.foldl_append, List.foldl_cons, List.foldl_nil]
    obtain ⟨ih1, ih2⟩ := ih
    obtain ⟨p1, p2⟩ := plotBit_spec ry (ox + m) (byte.getLsbD (7 - m))
      ((List.range m).foldl (fun c b => plotBit ry (ox + b) (byte.getLsbD (7 - b)) c) c) hy
    refine ⟨fun y x => ?_, ?_⟩
    · rw [p1, ih1]
      by_cases hx : x = ox + m
      · subst hx
        have h1 : ¬ (y = ry ∧ ox ≤ ox + m ∧ ox + m < ox + m ∧ ox + m < 64) := by omega
        have h2 : ox + m - ox = m := by omega
        have h3 : (y = ry ∧ ox ≤ ox + m ∧ ox + m < ox + (m + 1) ∧ ox + m < 64) ↔ (y = ry ∧ ox + m < 64) := by omega
        simp only [h1, h2, h3, decide_false, Bool.false_and, Bool.xor_false, true_and]
      · have h1 : ¬ (y = ry ∧ x = ox + m ∧ ox + m < 64) := fun e => hx e.2.1
        have h3 : (y = ry ∧ ox ≤ x ∧ x < ox + (m + 1) ∧ x < 64) ↔ (y = ry ∧ ox ≤ x ∧ x < ox + m ∧ x < 64) := by omega
        simp only [h1, h3, decide_false, Bool.false_and, Bool.xor_false]
    · have h1 : ¬ (ry = ry ∧ ox ≤ ox + m ∧ ox + m < ox + m ∧ ox + m < 64) := by omega
      have same := ih1 ry (ox + m)
      rw [decide_eq_false h1, Bool.false_and, Bool.xor_false] at same
      rw [p2, Bool.or_eq_true, ih2, same]
      simp only [Bool.and_eq_true, decide_eq_true_eq]
      constructor
      · rintro ((h | ⟨x, h⟩) | ⟨⟨h2, h3⟩, h4⟩)
        · exact Or.inl h
        · exact Or.inr ⟨x, h.1, by omega, h.2.2⟩
        · exact Or.inr ⟨ox + m, by omega, by omega, h2, by rwa [Nat.add_sub_cancel_left], h4⟩
      · rintro (h | ⟨x, h2, h3, h4, h5, h6⟩)
        · exact Or.inl (Or.inl h)
        · by_cases hx : x = ox + m
          · subst hx
            rw [Nat.add_sub_cancel_left] at h5
            exact Or.inr ⟨⟨h4, h5⟩, h6⟩
          · exact Or.inl (Or.inr ⟨x, h2, by omega, h4, h5, h6⟩)

/-- One sprite row: every cell of row `ry` under the sprite is exclusive-ored, and a collision is a lit one under a set
bit (44_display.md R171). -/
theorem plotRow_spec (ry ox : Nat) (byte : Byte) (c : Framebuffer × Bool) (hy : ry < 32) :
    (∀ y x, fbPixel (plotRow ry ox byte c).1 y x = (fbPixel c.1 y x ^^
      (decide (y = ry ∧ ox ≤ x ∧ x < ox + 8 ∧ x < 64) && byte.getLsbD (7 - (x - ox))))) ∧
    ((plotRow ry ox byte c).2 = true ↔ c.2 = true ∨ ∃ x, ox ≤ x ∧ x < ox + 8 ∧ x < 64 ∧
      byte.getLsbD (7 - (x - ox)) = true ∧ fbPixel c.1 ry x = true) :=
  plotBits_spec ry ox byte c hy 8

/-- A sprite from row `r` on, on every cell of the grid and on the collision mark (44_display.md R171, corner case (e):
each cell is touched at most once). -/
theorem plotRows_spec (oy ox r : Nat) (rows : List Byte) (c : Framebuffer × Bool) :
    (∀ y x, y < 32 → x < 64 → fbPixel (plotRows oy ox r rows c).1 y x =
      (fbPixel c.1 y x ^^ spriteBit (oy + r) ox rows y x)) ∧
    ((plotRows oy ox r rows c).2 = true ↔ c.2 = true ∨ ∃ y x, y < 32 ∧ x < 64 ∧ fbPixel c.1 y x = true ∧
      spriteBit (oy + r) ox rows y x = true) := by
  induction rows generalizing r c with
  | nil => simp [plotRows, spriteBit]
  | cons byte rest ih =>
    by_cases hr : oy + r ≥ 32
    · have none : ∀ y x, y < 32 → spriteBit (oy + r) ox (byte :: rest) y x = false := by
        intro y x hy
        have : ¬ oy + r ≤ y := by omega
        simp [spriteBit, this]
      rw [plotRows, if_pos hr]
      refine ⟨fun y x hy _ => by simp [none y x hy], ⟨Or.inl, ?_⟩⟩
      rintro (h | ⟨y, x, hy, _, _, h⟩)
      · exact h
      · simp [none y x hy] at h
    · have hlt : oy + r < 32 := by omega
      rw [plotRows, if_neg hr]
      obtain ⟨r1, r2⟩ := plotRow_spec (oy + r) ox byte c hlt
      obtain ⟨i1, i2⟩ := ih (r + 1) (plotRow (oy + r) ox byte c)
      have top : ∀ x, x < 64 → spriteBit (oy + r) ox (byte :: rest) (oy + r) x =
          (decide (ox ≤ x ∧ x < ox + 8) && byte.getLsbD (7 - (x - ox))) := by
        intro x _
        simp [spriteBit, Bool.decide_and]
      have top' : ∀ x, spriteBit (oy + (r + 1)) ox rest (oy + r) x = false := by
        intro x
        have : ¬ oy + (r + 1) ≤ oy + r := by omega
        simp [spriteBit, this]
      have below : ∀ y x, y ≠ oy + r → spriteBit (oy + r) ox (byte :: rest) y x =
          spriteBit (oy + (r + 1)) ox rest y x := by
        intro y x hy
        by_cases hle : oy + r ≤ y
        · have h1 : oy + (r + 1) ≤ y := by omega
          have h2 : y - (oy + r) = (y - (oy + (r + 1))) + 1 := by omega
          simp [spriteBit, hle, h1, h2]
        · have h1 : ¬ oy + (r + 1) ≤ y := by omega
          simp [spriteBit, hle, h1]
      refine ⟨fun y x hy hx => ?_, ?_⟩
      · rw [i1 y x hy hx, r1]
        by_cases hrow : y = oy + r
        · subst hrow
          rw [top x hx, top']
          simp [hx]
        · rw [below y x hrow]
          simp [hrow]
      · rw [i2, r2]
        constructor
        · rintro ((h | ⟨x, h1, h2, h3, h4, h5⟩) | ⟨y, x, hy, hx, h1, h2⟩)
          · exact Or.inl h
          · exact Or.inr ⟨oy + r, x, hlt, h3, h5, by rw [top x h3]; simp [h1, h2, h4]⟩
          · have hrow : y ≠ oy + r := by
              intro e
              rw [e, top'] at h2
              exact Bool.noConfusion h2
            rw [r1] at h1
            refine Or.inr ⟨y, x, hy, hx, ?_, by rw [below y x hrow]; exact h2⟩
            simpa [hrow] using h1
        · rintro (h | ⟨y, x, hy, hx, h1, h2⟩)
          · exact Or.inl (Or.inl h)
          · by_cases hrow : y = oy + r
            · subst hrow
              rw [top x hx] at h2
              simp only [Bool.and_eq_true, decide_eq_true_eq] at h2
              exact Or.inl (Or.inr ⟨x, h2.1.1, h2.1.2, hx, h2.2, h1⟩)
            · refine Or.inr ⟨y, x, hy, hx, ?_, by rw [← below y x hrow]; exact h2⟩
              rw [r1]
              simpa [hrow] using h1

end Sys2Proof.Machine
end

