-- ==== Sys2Proof/Laws/Tick.lean ====
section
/-! SUPPORT. What the parts of a tick answer: completion, raising, the key scan, the fetch and dispatch, and the step of
each mode (spec/40_tick_engine.md). -/

namespace Sys2Proof.Machine

@[simp] theorem complete_eq (d : Directive) (s : State) : complete d s = .next (s.applyDirective d) := rfl

@[simp] theorem raiseFatal_eq (f : Fault) : raiseFatal f = .fault f := rfl

@[simp] theorem orRaise_ok {α : Type} (a : α) (k : α → Result) : orRaise (.ok a) k = k a := rfl

@[simp] theorem orRaise_error {α : Type} (f : Fault) (k : α → Result) : orRaise (.error f) k = .fault f := rfl

/-- A register number from the range 0 to 15 of the scan. -/
theorem nibble_ofNat_toNat (k : Nibble) : BitVec.ofNat 4 k.toNat = k := by simp

/-- The scan finds the least pressed key (40_tick_engine.md R92). -/
theorem State.lowestKey_eq_some (s : State) (k : Nibble) :
    s.lowestKey = some k ↔ s.keyDown k = true ∧ ∀ j : Nibble, j.toNat < k.toNat → s.keyDown j = false := by
  have find : ∀ m, m ≤ 16 → (((List.range m).map (BitVec.ofNat 4)).find? s.keyDown = some k ↔
      k.toNat < m ∧ s.keyDown k = true ∧ ∀ j : Nibble, j.toNat < k.toNat → s.keyDown j = false) := by
    intro m hm
    induction m with
    | zero => simp
    | succ m ih =>
      rw [List.range_succ, List.map_append, List.find?_append, Option.or_eq_some_iff, ih (by omega)]
      have hmn : (BitVec.ofNat 4 m).toNat = m := by simp; omega
      simp only [List.find?_eq_none, List.map_cons, List.map_nil, List.mem_map, List.mem_range,
        forall_exists_index, and_imp, forall_apply_eq_imp_iff₂]
      constructor
      · rintro (h | ⟨none, h⟩)
        · exact ⟨by omega, h.2⟩
        · have hk : s.keyDown (BitVec.ofNat 4 m) = true ∧ BitVec.ofNat 4 m = k := by
            by_cases hd : s.keyDown (BitVec.ofNat 4 m) = true
            · rw [List.find?_cons_of_pos hd] at h
              exact ⟨hd, by simpa using h⟩
            · rw [List.find?_cons_of_neg hd] at h
              simp at h
          obtain ⟨hd, rfl⟩ := hk
          refine ⟨by omega, hd, fun j hj => ?_⟩
          have := none j.toNat (by omega)
          rw [nibble_ofNat_toNat] at this
          simpa using this
      · rintro ⟨h1, h2, h3⟩
        by_cases hk : k.toNat = m
        · refine Or.inr ⟨fun a ha => ?_, ?_⟩
          · have ham : (BitVec.ofNat 4 a).toNat = a := by simp; omega
            simp [h3 (BitVec.ofNat 4 a) (by omega)]
          · have e : BitVec.ofNat 4 m = k := by rw [← hk, nibble_ofNat_toNat]
            rw [e, List.find?_cons_of_pos h2]
        · exact Or.inl ⟨by omega, h2, h3⟩
  unfold State.lowestKey
  rw [find 16 (by omega)]
  exact ⟨fun h => h.2, fun h => ⟨k.isLt, h⟩⟩

/-- The scan finds nothing exactly when no key is down (40_tick_engine.md R92). -/
theorem State.lowestKey_eq_none (s : State) : s.lowestKey = none ↔ s.NoKey := by
  unfold State.lowestKey State.NoKey
  simp only [List.find?_eq_none, List.mem_map, List.mem_range, forall_exists_index, and_imp,
    forall_apply_eq_imp_iff₂, Bool.not_eq_true]
  constructor
  · intro h k
    have := h k.toNat k.isLt
    rwa [nibble_ofNat_toNat] at this
  · intro h k _
    exact h _

/-- Two bytes decode to an instruction exactly when their opcode does. -/
theorem decode_pair_ok (hi lo : Byte) (i : Instr) :
    decode [hi, lo] = .ok (i, []) ↔ decodeWord (composeOpcode hi lo) = .ok i := by
  simp only [decode]
  cases decodeWord (composeOpcode hi lo) <;> simp

/-- Two bytes are rejected exactly when their opcode is, for the same reason. -/
theorem decode_pair_error (hi lo : Byte) (e : DecodeError) :
    decode [hi, lo] = .error e ↔ decodeWord (composeOpcode hi lo) = .error e := by
  simp only [decode]
  cases decodeWord (composeOpcode hi lo) <;> simp

/-- A step in `Running` with a fetchable `PC` dispatches the opcode found there. -/
theorem step_running {s : State} (hm : s.mode = .running) (hp : s.pc.toNat + 1 < 4096) :
    step s = execWord s.opcodeAtPc s.beginRunning := by
  have hf : s.beginRunning.fetch = .ok s.opcodeAtPc := by
    rw [State.fetch_eq]
    exact if_pos hp
  unfold step tickOutcome
  rw [hm]
  exact (congrArg (orRaise · _) hf).trans rfl

/-- A step in `Running` from a `PC` at which no two bytes exist. -/
theorem step_running_unfetchable {s : State} (hm : s.mode = .running) (hp : ¬ s.pc.toNat + 1 < 4096) :
    step s = .fault .memoryAccessError := by
  have hf : s.beginRunning.fetch = .error .memoryAccessError := by
    rw [State.fetch_eq]
    exact if_neg hp
  unfold step tickOutcome
  rw [hm]
  exact (congrArg (orRaise · _) hf).trans rfl

/-- A step in `AwaitingKey(t)`. -/
theorem step_awaiting {s : State} {t : Reg} (hm : s.mode = .awaitingKey t) : step s = awaitingTick t s.resetDirty := by
  unfold step tickOutcome
  rw [hm]

/-- A key-wait tick with no key down (40_tick_engine.md R92). -/
theorem step_awaiting_none {s : State} {t : Reg} (hm : s.mode = .awaitingKey t) (hn : s.NoKey) :
    step s = .next s.resetDirty := by
  have hk : s.resetDirty.lowestKey = none := (State.lowestKey_eq_none _).2 hn
  rw [step_awaiting hm, awaitingTick, hk]

/-- A key-wait tick with `k` the least key down (40_tick_engine.md R92). -/
theorem step_awaiting_some {s : State} {t : Reg} (hm : s.mode = .awaitingKey t) (k : Nibble) (hk : s.keyDown k = true)
    (hl : ∀ j : Nibble, j.toNat < k.toNat → s.keyDown j = false) :
    step s = .next ((s.resetDirty.writeReg t (k.setWidth 8)).writeMode .running) := by
  have h : s.resetDirty.lowestKey = some k := (State.lowestKey_eq_some _ _).2 ⟨hk, hl⟩
  rw [step_awaiting hm, awaitingTick, h]

/-- A run whose first step completes. -/
theorem core_run_of_next {s t : State} (n : Nat) (h : step s = .next t) :
    Host.Core.run Sys2Proof.core (n + 1) s = Host.Core.run Sys2Proof.core n t := by
  have hs : Sys2Proof.core.step s = .next t := h
  simp only [Host.Core.run, hs]

/-- A step that runs an instruction. -/
theorem step_instr {s : State} {i : Instr} (hm : s.mode = .running) (hp : s.pc.toNat + 1 < 4096)
    (hd : decodeWord s.opcodeAtPc = .ok i) : step s = exec i s.beginRunning := by
  rw [step_running hm hp, execWord, hd]

/-- A step that meets an unmatched word. -/
theorem step_unmatched {s : State} {e : DecodeError} (hm : s.mode = .running) (hp : s.pc.toNat + 1 < 4096)
    (hd : decodeWord s.opcodeAtPc = .error e) : step s = execUnmatched s.beginRunning := by
  rw [step_running hm hp, execWord, hd]

/-- Everything a step can be: a key-wait tick, an unfetchable `PC`, an unmatched word, or an instruction. -/
theorem step_cases (s : State) :
    (∃ t, s.mode = .awaitingKey t ∧ step s = awaitingTick t s.resetDirty) ∨
    (s.mode = .running ∧ ¬ s.pc.toNat + 1 < 4096 ∧ step s = .fault .memoryAccessError) ∨
    (s.mode = .running ∧ s.pc.toNat + 1 < 4096 ∧
      ∃ e, decodeWord s.opcodeAtPc = .error e ∧ step s = execUnmatched s.beginRunning) ∨
    (s.mode = .running ∧ s.pc.toNat + 1 < 4096 ∧
      ∃ i, decodeWord s.opcodeAtPc = .ok i ∧ step s = exec i s.beginRunning) := by
  cases hm : s.mode with
  | awaitingKey t => exact Or.inl ⟨t, rfl, step_awaiting hm⟩
  | running =>
    by_cases hp : s.pc.toNat + 1 < 4096
    · cases hd : decodeWord s.opcodeAtPc with
      | error e => exact Or.inr (Or.inr (Or.inl ⟨rfl, hp, e, rfl, step_unmatched hm hp hd⟩))
      | ok i => exact Or.inr (Or.inr (Or.inr ⟨rfl, hp, i, rfl, step_instr hm hp hd⟩))
    · exact Or.inr (Or.inl ⟨rfl, hp, step_running_unfetchable hm hp⟩)

/-- A fatal condition comes only from a Running tick. -/
theorem running_of_step_fault {s : State} {f : Fault} (h : step s = .fault f) : s.mode = .running := by
  cases hm : s.mode with
  | running => rfl
  | awaitingKey t =>
    rw [step_awaiting hm] at h
    unfold awaitingTick at h
    split at h <;> simp at h

/-! ## `tick` -/

/-- The report of a tick whose step completes. -/
theorem tick_of_next {s t : State} {rng : Option Byte} (h : step (s.withRng [rng]) = .next t) :
    tick rng s = .ok (report (t.withRng s.rngIn) none) := by
  unfold tick
  rw [h]

/-- The report of a tick whose step raises. -/
theorem tick_of_fault {s : State} {rng : Option Byte} {f : Fault} (h : step (s.withRng [rng]) = .fault f) :
    tick rng s = .ok (report s.beginRunning (some f)) := by
  unfold tick
  rw [h]

/-- Everything a report can be. -/
theorem tick_cases {s : State} {rng : Option Byte} {r : TickReport} (h : tick rng s = .ok r) :
    (∃ t, step (s.withRng [rng]) = .next t ∧ r = report (t.withRng s.rngIn) none) ∨
    (∃ f, step (s.withRng [rng]) = .fault f ∧ r = report s.beginRunning (some f)) := by
  cases hs : step (s.withRng [rng]) with
  | next t => exact Or.inl ⟨t, rfl, Except.ok.inj (h.symm.trans (tick_of_next hs))⟩
  | fault f => exact Or.inr ⟨f, rfl, Except.ok.inj (h.symm.trans (tick_of_fault hs))⟩
  | refused e =>
    unfold tick at h
    rw [hs] at h
    simp at h

/-- The opcode at `PC` does not depend on the answers of the random source. -/
@[simp] theorem State.opcodeAtPc_withRng (s : State) (l : List (Option Byte)) :
    (s.withRng l).opcodeAtPc = s.opcodeAtPc := rfl

/-! ## `load` changes memory alone (20_memory.md R64) -/

@[simp] theorem State.load_v (s : State) (l : List Byte) : (s.load l).v = s.v :=
  State.setBytes_v _ _ _
@[simp] theorem State.load_i (s : State) (l : List Byte) : (s.load l).i = s.i :=
  State.setBytes_i _ _ _
@[simp] theorem State.load_pc (s : State) (l : List Byte) : (s.load l).pc = s.pc :=
  State.setBytes_pc _ _ _
@[simp] theorem State.load_stack (s : State) (l : List Byte) : (s.load l).stack = s.stack :=
  State.setBytes_stack _ _ _
@[simp] theorem State.load_sp (s : State) (l : List Byte) : (s.load l).sp = s.sp :=
  State.setBytes_sp _ _ _
@[simp] theorem State.load_dt (s : State) (l : List Byte) : (s.load l).dt = s.dt :=
  State.setBytes_dt _ _ _
@[simp] theorem State.load_st (s : State) (l : List Byte) : (s.load l).st = s.st :=
  State.setBytes_st _ _ _
@[simp] theorem State.load_keys (s : State) (l : List Byte) : (s.load l).keys = s.keys :=
  State.setBytes_keys _ _ _
@[simp] theorem State.load_mode (s : State) (l : List Byte) : (s.load l).mode = s.mode :=
  State.setBytes_mode _ _ _
@[simp] theorem State.load_fb (s : State) (l : List Byte) : (s.load l).fb = s.fb :=
  State.setBytes_fb _ _ _
@[simp] theorem State.load_dirty (s : State) (l : List Byte) : (s.load l).dirty = s.dirty :=
  State.setBytes_dirty _ _ _
@[simp] theorem State.load_config (s : State) (l : List Byte) : (s.load l).config = s.config :=
  State.setBytes_config _ _ _
@[simp] theorem State.load_rngIn (s : State) (l : List Byte) : (s.load l).rngIn = s.rngIn :=
  State.setBytes_rngIn _ _ _
@[simp] theorem State.load_rngDraws (s : State) (l : List Byte) : (s.load l).rngDraws = s.rngDraws :=
  State.setBytes_rngDraws _ _ _

/-- The beeper output, on numbers (40_tick_engine.md R97). -/
theorem State.beeping_iff (s : State) : s.beeping = true ↔ 0 < s.st.toNat := decide_eq_true_iff

end Sys2Proof.Machine
end

