-- ==== Sys2Proof/Laws/Exec.lean ====
section
/-! SUPPORT. The meanings with a check or a condition as one equation each: what `exec` answers, on which condition of
the state. Every other meaning is `complete .next` of plain updates, an equation by `rfl`. -/

namespace Sys2Proof.Machine

/-- A register load changes the registers alone. -/
theorem State.writeRegs_eq (s : State) (j : Nat) (l : List Byte) :
    s.writeRegs j l = { s with v := (s.writeRegs j l).v } := by
  induction l generalizing s j with
  | nil => rfl
  | cons b rest ih => rw [State.writeRegs, ih]; rfl

/-- The memory after a store depends on memory and the parameters alone. -/
theorem State.setBytes_mem_congr {s t : State} (a : Nat) (l : List Byte) (hm : s.mem = t.mem)
    (hc : s.config = t.config) : (s.setBytes a l).mem = (t.setBytes a l).mem := by
  induction l generalizing s t a with
  | nil => exact hm
  | cons b rest ih =>
    rw [State.setBytes, State.setBytes]
    exact ih (a + 1) (by simp only [State.setByte, hm, hc]) hc

/-- The registers after a register load depend on the registers alone. -/
theorem State.writeRegs_v_congr {s t : State} (j : Nat) (l : List Byte) (hv : s.v = t.v) :
    (s.writeRegs j l).v = (t.writeRegs j l).v := by
  induction l generalizing s t j with
  | nil => exact hv
  | cons b rest ih =>
    rw [State.writeRegs, State.writeRegs]
    exact ih (j + 1) (by simp only [State.writeReg, hv])

/-- A draw changes the model's own fields alone. -/
theorem State.drawDone_eq (s : State) :
    s.drawDone = { s with rngIn := s.drawDone.rngIn, rngDraws := s.drawDone.rngDraws } := by
  unfold State.drawDone
  split <;> rfl

/-- A conditional skip: 4 further if the condition holds, else 2. -/
theorem complete_skipIf (c : Bool) (s : State) :
    complete (skipIf c) s = .next { s with pc := if c = true then s.pc + 4#16 else s.pc + 2#16 } := by
  cases c <;> rfl

/-- Everything `keyLevel` can answer (45_keypad_timers.md R186). -/
theorem State.keyLevel_cases (s : State) (a : Byte) :
    (a.toNat ≤ 15 ∧ s.keyLevel a = .ok (s.keyDown (a.setWidth 4))) ∨
    (15 < a.toNat ∧ s.config.keyIndexPolicy = .fault ∧ s.keyLevel a = .error .keyIndexError) ∨
    (15 < a.toNat ∧ s.config.keyIndexPolicy = .lowNibble ∧ s.keyLevel a = .ok (s.keyDown (a.setWidth 4))) ∨
    (15 < a.toNat ∧ s.config.keyIndexPolicy = .notPressed ∧ s.keyLevel a = .ok false) := by
  unfold State.keyLevel
  by_cases h : a.toNat ≤ 15
  · exact Or.inl ⟨h, if_pos h⟩
  · have h' : 15 < a.toNat := by omega
    rw [if_neg h]
    cases s.config.keyIndexPolicy <;> simp [h']

/-- SKP on each answer of the key level. -/
theorem exec_skp (x : Reg) (s : State) :
    (∃ f, s.keyLevel (s.readReg x) = .error f ∧ exec (.skp x) s = .fault f) ∨
    (∃ b, s.keyLevel (s.readReg x) = .ok b ∧
      exec (.skp x) s = .next { s with pc := if b = true then s.pc + 4#16 else s.pc + 2#16 }) := by
  simp only [exec, execSkp]
  cases s.keyLevel (s.readReg x) with
  | error f => exact Or.inl ⟨f, rfl, rfl⟩
  | ok b => exact Or.inr ⟨b, rfl, complete_skipIf b s⟩

/-- SKNP on each answer of the key level. -/
theorem exec_sknp (x : Reg) (s : State) :
    (∃ f, s.keyLevel (s.readReg x) = .error f ∧ exec (.sknp x) s = .fault f) ∨
    (∃ b, s.keyLevel (s.readReg x) = .ok b ∧
      exec (.sknp x) s = .next { s with pc := if b = true then s.pc + 2#16 else s.pc + 4#16 }) := by
  simp only [exec, execSknp]
  cases s.keyLevel (s.readReg x) with
  | error f => exact Or.inl ⟨f, rfl, rfl⟩
  | ok b => exact Or.inr ⟨b, rfl, by cases b <;> rfl⟩

/-- CALL (41_control_flow.md R112). -/
theorem exec_call (nnn : Addr12) (s : State) :
    exec (.call nnn) s = if h : s.sp.toNat < 16 then
      .next { s with stack := s.stack.set s.sp.toNat (s.pc + 2#16) h, sp := s.sp + 1#8, pc := zextAddr nnn }
    else .fault .stackOverflow := by
  simp only [exec, execCall, State.pushReturn]
  by_cases h : s.sp.toNat < 16
  · rw [dif_pos h, dif_pos h]; rfl
  · rw [dif_neg h, dif_neg h]; rfl

/-- RET (41_control_flow.md R110; above 16: log 16). -/
theorem exec_ret (s : State) :
    exec .ret s = if s.sp = 0#8 then .fault .stackUnderflow
      else if h : s.sp.toNat - 1 < 16 then
        .next { s with sp := s.sp - 1#8, pc := s.stack[s.sp.toNat - 1] }
      else .fault .stackOverflow := by
  simp only [exec, execRet, State.popReturn]
  by_cases h : s.sp = 0#8
  · rw [if_pos h, if_pos h]; rfl
  · rw [if_neg h, if_neg h]
    by_cases h' : s.sp.toNat - 1 < 16
    · rw [dif_pos h', dif_pos h']; rfl
    · rw [dif_neg h', dif_neg h']; rfl

/-- LD B,Vx (43_index_memory.md R153). -/
theorem exec_ldBcd (x : Reg) (s : State) :
    exec (.ldBcd x) s = if s.i.toNat + 2 < 4096 then
      .next ((s.setBytes s.i.toNat (bcdDigits (s.readReg x))).applyDirective .next)
    else .fault .memoryAccessError := by
  have hr : rangeOk s.i.toNat (bcdDigits (s.readReg x)).length = true ↔ s.i.toNat + 2 < 4096 := by
    rw [rangeOk_iff]; simp [bcdDigits]
  simp only [exec, execLdBcd, State.memWrite, State.indexBase, hr]
  split <;> rfl

/-- LD [I],Vx (43_index_memory.md R154). -/
theorem exec_storeRegs (x : Reg) (s : State) :
    exec (.storeRegs x) s = if s.i.toNat + x.toNat < 4096 then
      .next ((s.setBytes s.i.toNat (s.readRegs x)).applyDirective .next)
    else .fault .memoryAccessError := by
  have hr : rangeOk s.i.toNat (s.readRegs x).length = true ↔ s.i.toNat + x.toNat < 4096 := by
    rw [rangeOk_iff, State.length_readRegs]; omega
  simp only [exec, execStoreRegs, State.memWrite, State.indexBase, hr]
  split <;> rfl

/-- LD Vx,[I] (43_index_memory.md R155). -/
theorem exec_loadRegs (x : Reg) (s : State) :
    exec (.loadRegs x) s = if s.i.toNat + x.toNat < 4096 then
      .next ((s.writeRegs 0 ((List.range (x.toNat + 1)).map fun k => s.byteAt (s.i.toNat + k))).applyDirective .next)
    else .fault .memoryAccessError := by
  have hr : rangeOk s.i.toNat (x.toNat + 1) = true ↔ s.i.toNat + x.toNat < 4096 := by
    rw [rangeOk_iff]; omega
  simp only [exec, execLoadRegs, State.memRead, State.indexBase, hr]
  split <;> rfl

/-- DRW Vx,Vy,n (44_display.md R171). -/
theorem exec_drw (x y : Reg) (n : Nibble) (s : State) :
    exec (.drw x y n) s = if n.toNat = 0 ∨ s.i.toNat + n.toNat - 1 < 4096 then
      let drawn := plotRows (originY (s.readReg y)) (originX (s.readReg x)) 0
        ((List.range n.toNat).map fun k => s.byteAt (s.i.toNat + k)) (s.fb, false)
      .next (((s.present drawn.1).writeReg .vf (collisionFlag drawn.2)).applyDirective .next)
    else .fault .memoryAccessError := by
  simp only [exec, execDrw, State.memRead, State.indexBase, rangeOk_iff]
  split <;> rfl

/-- The unmatched handler (40_tick_engine.md R100). -/
theorem execUnmatched_eq (s : State) :
    execUnmatched s = if s.config.strict = true then .fault .unknownOpcode
      else .next { s with pc := s.pc + 2#16 } := rfl

end Sys2Proof.Machine
end

