-- ==== Sys2Proof/Laws/PerInstr.lean ====
section
/-! SUPPORT. One statement about every instruction as syntax, proved constructor by constructor: its operands are
well-formed, and its opcode is the one its row of the opcode map spells (30_encoding.md R75, R83). -/

namespace Sys2Proof.Laws

/-! ## The word of each format, by its fields, by R83's formula, and under its mask -/

theorem word_nnn (m : Nibble) (nnn : Addr12) :
    (m ++ nnn : Word) = (m ++ 0#12 : Word) ||| BitVec.ofNat 16 nnn.toNat ∧
    ((m ++ nnn : Word) &&& 0xF000#16) = (m ++ 0#12 : Word) := by
  constructor <;>
    (apply BitVec.eq_of_getLsbD_eq
     intro i hi
     simp only [BitVec.ofNat_toNat, BitVec.getLsbD_or, BitVec.getLsbD_and, BitVec.getLsbD_append,
       BitVec.getLsbD_setWidth]
     interval_cases i <;> simp)

theorem word_xkk (m : Nibble) (x : Reg) (kk : Byte) :
    (m ++ x ++ kk : Word) =
      (m ++ 0#12 : Word) ||| BitVec.ofNat 16 x.toNat <<< 8 ||| BitVec.ofNat 16 kk.toNat ∧
    ((m ++ x ++ kk : Word) &&& 0xF000#16) = (m ++ 0#12 : Word) := by
  constructor <;>
    (apply BitVec.eq_of_getLsbD_eq
     intro i hi
     simp only [BitVec.ofNat_toNat, BitVec.getLsbD_or, BitVec.getLsbD_and, BitVec.getLsbD_append,
       BitVec.getLsbD_shiftLeft, BitVec.getLsbD_setWidth]
     interval_cases i <;> simp)

theorem word_xyn (m : Nibble) (x y : Reg) (n : Nibble) :
    (m ++ x ++ y ++ n : Word) = (m ++ 0#12 : Word) ||| BitVec.ofNat 16 x.toNat <<< 8 |||
      BitVec.ofNat 16 y.toNat <<< 4 ||| BitVec.ofNat 16 n.toNat ∧
    ((m ++ x ++ y ++ n : Word) &&& 0xF000#16) = (m ++ 0#12 : Word) := by
  constructor <;>
    (apply BitVec.eq_of_getLsbD_eq
     intro i hi
     simp only [BitVec.ofNat_toNat, BitVec.getLsbD_or, BitVec.getLsbD_and, BitVec.getLsbD_append,
       BitVec.getLsbD_shiftLeft, BitVec.getLsbD_setWidth]
     interval_cases i <;> simp)

theorem word_xy (m d : Nibble) (x y : Reg) :
    (m ++ x ++ y ++ d : Word) = (m ++ 0#8 ++ d : Word) ||| BitVec.ofNat 16 x.toNat <<< 8 |||
      BitVec.ofNat 16 y.toNat <<< 4 ∧
    ((m ++ x ++ y ++ d : Word) &&& 0xF00F#16) = (m ++ 0#8 ++ d : Word) := by
  constructor <;>
    (apply BitVec.eq_of_getLsbD_eq
     intro i hi
     simp only [BitVec.ofNat_toNat, BitVec.getLsbD_or, BitVec.getLsbD_and, BitVec.getLsbD_append,
       BitVec.getLsbD_shiftLeft, BitVec.getLsbD_setWidth]
     interval_cases i <;> simp)

theorem word_x (m : Nibble) (d : Byte) (x : Reg) :
    (m ++ x ++ d : Word) = (m ++ 0#4 ++ d : Word) ||| BitVec.ofNat 16 x.toNat <<< 8 ∧
    ((m ++ x ++ d : Word) &&& 0xF0FF#16) = (m ++ 0#4 ++ d : Word) := by
  constructor <;>
    (apply BitVec.eq_of_getLsbD_eq
     intro i hi
     simp only [BitVec.ofNat_toNat, BitVec.getLsbD_or, BitVec.getLsbD_and, BitVec.getLsbD_append,
       BitVec.getLsbD_shiftLeft, BitVec.getLsbD_setWidth]
     interval_cases i <;> simp)

namespace Encoding

/-- The operands of an instruction fit its format, and a row of the opcode map with its mnemonic and format spells its
opcode and selects it. -/
def Statement (i : Instr) : Prop :=
  i.WellFormed ∧ ∃ r ∈ opcodeTable, r.mnemonic = i.mnemonic ∧ r.format = i.format ∧ r.assemble i.operands = encode i ∧
    r.selects (encode i) = true

/-- From a row of the table to the statement. -/
theorem of_row {i : Instr} (r : OpcodeRow) (hw : i.WellFormed) (hr : r ∈ opcodeTable) (hm : r.mnemonic = i.mnemonic)
    (hf : r.format = i.format) (ha : r.assemble i.operands = encode i)
    (hs : (encode i &&& r.mask) = r.matchBits) : Statement i :=
  ⟨hw, r, hr, hm, hf, ha, by simp [OpcodeRow.selects, hs]⟩

theorem lt_byte (kk : Byte) : kk.toNat < 256 := kk.isLt

theorem lt_nibble (x : Nibble) : x.toNat < 16 := x.isLt

theorem lt_addr (nnn : Addr12) : nnn.toNat < 4096 := nnn.isLt

theorem wellFormed (i : Instr) : i.WellFormed := by
  cases i <;>
    simp [Instr.WellFormed, Instr.operands, Instr.format, Operands.wellFormed, lt_byte, lt_nibble, lt_addr]

theorem cls : Statement .cls :=
  of_row ⟨"CLS", .fixed, 0xFFFF, 0x00E0⟩ (wellFormed _) (by decide) rfl rfl rfl (by decide)

theorem ret : Statement .ret :=
  of_row ⟨"RET", .fixed, 0xFFFF, 0x00EE⟩ (wellFormed _) (by decide) rfl rfl rfl (by decide)

theorem jp (nnn : Addr12) : Statement (.jp nnn) :=
  of_row ⟨"JP_nnn", .nnn, 0xF000, 0x1000⟩ (wellFormed _) (by decide) rfl rfl (word_nnn 0x1#4 nnn).1.symm
    (word_nnn 0x1#4 nnn).2

theorem call (nnn : Addr12) : Statement (.call nnn) :=
  of_row ⟨"CALL_nnn", .nnn, 0xF000, 0x2000⟩ (wellFormed _) (by decide) rfl rfl (word_nnn 0x2#4 nnn).1.symm
    (word_nnn 0x2#4 nnn).2

theorem seImm (x : Reg) (kk : Byte) : Statement (.seImm x kk) :=
  of_row ⟨"SE_Vx__kk", .xkk, 0xF000, 0x3000⟩ (wellFormed _) (by decide) rfl rfl (word_xkk 0x3#4 x kk).1.symm
    (word_xkk 0x3#4 x kk).2

theorem sneImm (x : Reg) (kk : Byte) : Statement (.sneImm x kk) :=
  of_row ⟨"SNE_Vx__kk", .xkk, 0xF000, 0x4000⟩ (wellFormed _) (by decide) rfl rfl (word_xkk 0x4#4 x kk).1.symm
    (word_xkk 0x4#4 x kk).2

theorem seReg (x y : Reg) : Statement (.seReg x y) :=
  of_row ⟨"SE_Vx__Vy", .xy, 0xF00F, 0x5000⟩ (wellFormed _) (by decide) rfl rfl (word_xy 0x5#4 0x0#4 x y).1.symm
    (word_xy 0x5#4 0x0#4 x y).2

theorem ldImm (x : Reg) (kk : Byte) : Statement (.ldImm x kk) :=
  of_row ⟨"LD_Vx__kk", .xkk, 0xF000, 0x6000⟩ (wellFormed _) (by decide) rfl rfl (word_xkk 0x6#4 x kk).1.symm
    (word_xkk 0x6#4 x kk).2

theorem addImm (x : Reg) (kk : Byte) : Statement (.addImm x kk) :=
  of_row ⟨"ADD_Vx__kk", .xkk, 0xF000, 0x7000⟩ (wellFormed _) (by decide) rfl rfl (word_xkk 0x7#4 x kk).1.symm
    (word_xkk 0x7#4 x kk).2

theorem ldReg (x y : Reg) : Statement (.ldReg x y) :=
  of_row ⟨"LD_Vx__Vy", .xy, 0xF00F, 0x8000⟩ (wellFormed _) (by decide) rfl rfl (word_xy 0x8#4 0x0#4 x y).1.symm
    (word_xy 0x8#4 0x0#4 x y).2

theorem orReg (x y : Reg) : Statement (.orReg x y) :=
  of_row ⟨"OR_Vx__Vy", .xy, 0xF00F, 0x8001⟩ (wellFormed _) (by decide) rfl rfl (word_xy 0x8#4 0x1#4 x y).1.symm
    (word_xy 0x8#4 0x1#4 x y).2

theorem andReg (x y : Reg) : Statement (.andReg x y) :=
  of_row ⟨"AND_Vx__Vy", .xy, 0xF00F, 0x8002⟩ (wellFormed _) (by decide) rfl rfl (word_xy 0x8#4 0x2#4 x y).1.symm
    (word_xy 0x8#4 0x2#4 x y).2

theorem xorReg (x y : Reg) : Statement (.xorReg x y) :=
  of_row ⟨"XOR_Vx__Vy", .xy, 0xF00F, 0x8003⟩ (wellFormed _) (by decide) rfl rfl (word_xy 0x8#4 0x3#4 x y).1.symm
    (word_xy 0x8#4 0x3#4 x y).2

theorem addReg (x y : Reg) : Statement (.addReg x y) :=
  of_row ⟨"ADD_Vx__Vy", .xy, 0xF00F, 0x8004⟩ (wellFormed _) (by decide) rfl rfl (word_xy 0x8#4 0x4#4 x y).1.symm
    (word_xy 0x8#4 0x4#4 x y).2

theorem subReg (x y : Reg) : Statement (.subReg x y) :=
  of_row ⟨"SUB_Vx__Vy", .xy, 0xF00F, 0x8005⟩ (wellFormed _) (by decide) rfl rfl (word_xy 0x8#4 0x5#4 x y).1.symm
    (word_xy 0x8#4 0x5#4 x y).2

theorem shr (x y : Reg) : Statement (.shr x y) :=
  of_row ⟨"SHR_Vx", .xy, 0xF00F, 0x8006⟩ (wellFormed _) (by decide) rfl rfl (word_xy 0x8#4 0x6#4 x y).1.symm
    (word_xy 0x8#4 0x6#4 x y).2

theorem subnReg (x y : Reg) : Statement (.subnReg x y) :=
  of_row ⟨"SUBN_Vx__Vy", .xy, 0xF00F, 0x8007⟩ (wellFormed _) (by decide) rfl rfl (word_xy 0x8#4 0x7#4 x y).1.symm
    (word_xy 0x8#4 0x7#4 x y).2

theorem shl (x y : Reg) : Statement (.shl x y) :=
  of_row ⟨"SHL_Vx", .xy, 0xF00F, 0x800E⟩ (wellFormed _) (by decide) rfl rfl (word_xy 0x8#4 0xE#4 x y).1.symm
    (word_xy 0x8#4 0xE#4 x y).2

theorem sneReg (x y : Reg) : Statement (.sneReg x y) :=
  of_row ⟨"SNE_Vx__Vy", .xy, 0xF00F, 0x9000⟩ (wellFormed _) (by decide) rfl rfl (word_xy 0x9#4 0x0#4 x y).1.symm
    (word_xy 0x9#4 0x0#4 x y).2

theorem ldI (nnn : Addr12) : Statement (.ldI nnn) :=
  of_row ⟨"LD_I__nnn", .nnn, 0xF000, 0xA000⟩ (wellFormed _) (by decide) rfl rfl (word_nnn 0xA#4 nnn).1.symm
    (word_nnn 0xA#4 nnn).2

theorem jpV0 (nnn : Addr12) : Statement (.jpV0 nnn) :=
  of_row ⟨"JP_V0__nnn", .nnn, 0xF000, 0xB000⟩ (wellFormed _) (by decide) rfl rfl (word_nnn 0xB#4 nnn).1.symm
    (word_nnn 0xB#4 nnn).2

theorem rnd (x : Reg) (kk : Byte) : Statement (.rnd x kk) :=
  of_row ⟨"RND_Vx__kk", .xkk, 0xF000, 0xC000⟩ (wellFormed _) (by decide) rfl rfl (word_xkk 0xC#4 x kk).1.symm
    (word_xkk 0xC#4 x kk).2

theorem drw (x y : Reg) (n : Nibble) : Statement (.drw x y n) :=
  of_row ⟨"DRW_Vx__Vy__n", .xyn, 0xF000, 0xD000⟩ (wellFormed _) (by decide) rfl rfl (word_xyn 0xD#4 x y n).1.symm
    (word_xyn 0xD#4 x y n).2

theorem skp (x : Reg) : Statement (.skp x) :=
  of_row ⟨"SKP_Vx", .x, 0xF0FF, 0xE09E⟩ (wellFormed _) (by decide) rfl rfl (word_x 0xE#4 0x9E#8 x).1.symm
    (word_x 0xE#4 0x9E#8 x).2

theorem sknp (x : Reg) : Statement (.sknp x) :=
  of_row ⟨"SKNP_Vx", .x, 0xF0FF, 0xE0A1⟩ (wellFormed _) (by decide) rfl rfl (word_x 0xE#4 0xA1#8 x).1.symm
    (word_x 0xE#4 0xA1#8 x).2

theorem ldFromDT (x : Reg) : Statement (.ldFromDT x) :=
  of_row ⟨"LD_Vx__DT", .x, 0xF0FF, 0xF007⟩ (wellFormed _) (by decide) rfl rfl (word_x 0xF#4 0x07#8 x).1.symm
    (word_x 0xF#4 0x07#8 x).2

theorem ldKey (x : Reg) : Statement (.ldKey x) :=
  of_row ⟨"LD_Vx__K", .x, 0xF0FF, 0xF00A⟩ (wellFormed _) (by decide) rfl rfl (word_x 0xF#4 0x0A#8 x).1.symm
    (word_x 0xF#4 0x0A#8 x).2

theorem ldDT (x : Reg) : Statement (.ldDT x) :=
  of_row ⟨"LD_DT__Vx", .x, 0xF0FF, 0xF015⟩ (wellFormed _) (by decide) rfl rfl (word_x 0xF#4 0x15#8 x).1.symm
    (word_x 0xF#4 0x15#8 x).2

theorem ldST (x : Reg) : Statement (.ldST x) :=
  of_row ⟨"LD_ST__Vx", .x, 0xF0FF, 0xF018⟩ (wellFormed _) (by decide) rfl rfl (word_x 0xF#4 0x18#8 x).1.symm
    (word_x 0xF#4 0x18#8 x).2

theorem addI (x : Reg) : Statement (.addI x) :=
  of_row ⟨"ADD_I__Vx", .x, 0xF0FF, 0xF01E⟩ (wellFormed _) (by decide) rfl rfl (word_x 0xF#4 0x1E#8 x).1.symm
    (word_x 0xF#4 0x1E#8 x).2

theorem ldFont (x : Reg) : Statement (.ldFont x) :=
  of_row ⟨"LD_F__Vx", .x, 0xF0FF, 0xF029⟩ (wellFormed _) (by decide) rfl rfl (word_x 0xF#4 0x29#8 x).1.symm
    (word_x 0xF#4 0x29#8 x).2

theorem ldBcd (x : Reg) : Statement (.ldBcd x) :=
  of_row ⟨"LD_B__Vx", .x, 0xF0FF, 0xF033⟩ (wellFormed _) (by decide) rfl rfl (word_x 0xF#4 0x33#8 x).1.symm
    (word_x 0xF#4 0x33#8 x).2

theorem storeRegs (x : Reg) : Statement (.storeRegs x) :=
  of_row ⟨"LD__I___Vx", .x, 0xF0FF, 0xF055⟩ (wellFormed _) (by decide) rfl rfl (word_x 0xF#4 0x55#8 x).1.symm
    (word_x 0xF#4 0x55#8 x).2

theorem loadRegs (x : Reg) : Statement (.loadRegs x) :=
  of_row ⟨"LD_Vx___I", .x, 0xF0FF, 0xF065⟩ (wellFormed _) (by decide) rfl rfl (word_x 0xF#4 0x65#8 x).1.symm
    (word_x 0xF#4 0x65#8 x).2

end Encoding

end Sys2Proof.Laws
end

