-- ==== Sys2Proof/Tests/Slice0.lean ====
section
/-! SUPPORT. Tests: operands that are refused, decoding by words written out from spec/30_encoding.md, single ticks from
the vectors of spec/95_test_vectors.md, and for each statement with hypotheses a state that meets them. -/

namespace Sys2Proof.Tests

open Sys2Proof Sys2Proof.Machine

/-! ## WellFormed refuses (30_encoding.md R71, R80) -/

theorem test_nnn_too_wide : Operands.wellFormed .nnn { nnn := 4096 } = false := by decide
theorem test_nnn_widest : Operands.wellFormed .nnn { nnn := 4095 } = true := by decide
theorem test_xkk_bad_register : Operands.wellFormed .xkk { x := 16, kk := 0 } = false := by decide
theorem test_xkk_bad_byte : Operands.wellFormed .xkk { x := 15, kk := 256 } = false := by decide
theorem test_xyn_bad_x : Operands.wellFormed .xyn { x := 16, y := 0, n := 0 } = false := by decide
theorem test_xyn_bad_y : Operands.wellFormed .xyn { x := 0, y := 16, n := 0 } = false := by decide
theorem test_xyn_bad_n : Operands.wellFormed .xyn { x := 0, y := 0, n := 16 } = false := by decide
theorem test_xy_bad_x : Operands.wellFormed .xy { x := 16, y := 0 } = false := by decide
theorem test_xy_bad_y : Operands.wellFormed .xy { x := 0, y := 16 } = false := by decide
theorem test_x_bad : Operands.wellFormed .x { x := 16 } = false := by decide

/-! ## Decoding: a word for every constructor, from the patterns of 30_encoding.md R75 (V30-2, V30-3 among them) -/

theorem test_decode_cls : decodeTableWord 16 0x00E0 = some .cls := by decide
theorem test_decode_ret : decodeTableWord 16 0x00EE = some .ret := by decide
theorem test_decode_jp : decodeTableWord 16 0x1ABC = some (.jp 0xABC) := by decide
theorem test_decode_call : decodeTableWord 16 0x220E = some (.call 0x20E) := by decide
theorem test_decode_seImm : decodeTableWord 16 0x3A05 = some (.seImm 0xA 0x05) := by decide
theorem test_decode_sneImm : decodeTableWord 16 0x4B80 = some (.sneImm 0xB 0x80) := by decide
theorem test_decode_seReg : decodeTableWord 16 0x5390 = some (.seReg 0x3 0x9) := by decide
theorem test_decode_ldImm : decodeTableWord 16 0x6EFF = some (.ldImm 0xE 0xFF) := by decide
theorem test_decode_addImm : decodeTableWord 16 0x7220 = some (.addImm 0x2 0x20) := by decide
theorem test_decode_ldReg : decodeTableWord 16 0x8340 = some (.ldReg 0x3 0x4) := by decide
theorem test_decode_orReg : decodeTableWord 16 0x8351 = some (.orReg 0x3 0x5) := by decide
theorem test_decode_andReg : decodeTableWord 16 0x8F12 = some (.andReg 0xF 0x1) := by decide
theorem test_decode_xorReg : decodeTableWord 16 0x8123 = some (.xorReg 0x1 0x2) := by decide
theorem test_decode_addReg : decodeTableWord 16 0x8F14 = some (.addReg 0xF 0x1) := by decide
theorem test_decode_subReg : decodeTableWord 16 0x8AB5 = some (.subReg 0xA 0xB) := by decide
theorem test_decode_shr : decodeTableWord 16 0x8126 = some (.shr 0x1 0x2) := by decide
theorem test_decode_subnReg : decodeTableWord 16 0x8AB7 = some (.subnReg 0xA 0xB) := by decide
theorem test_decode_shl : decodeTableWord 16 0x812E = some (.shl 0x1 0x2) := by decide
theorem test_decode_sneReg : decodeTableWord 16 0x9AB0 = some (.sneReg 0xA 0xB) := by decide
theorem test_decode_ldI : decodeTableWord 16 0xABCD = some (.ldI 0xBCD) := by decide
theorem test_decode_jpV0 : decodeTableWord 16 0xB30F = some (.jpV0 0x30F) := by decide
theorem test_decode_rnd : decodeTableWord 16 0xC7F0 = some (.rnd 0x7 0xF0) := by decide
theorem test_decode_drw : decodeTableWord 16 0xD7A3 = some (.drw 0x7 0xA 0x3) := by decide
theorem test_decode_skp : decodeTableWord 16 0xE19E = some (.skp 0x1) := by decide
theorem test_decode_sknp : decodeTableWord 16 0xE1A1 = some (.sknp 0x1) := by decide
theorem test_decode_ldFromDT : decodeTableWord 16 0xF207 = some (.ldFromDT 0x2) := by decide
theorem test_decode_ldKey : decodeTableWord 16 0xF10A = some (.ldKey 0x1) := by decide
theorem test_decode_ldDT : decodeTableWord 16 0xF015 = some (.ldDT 0x0) := by decide
theorem test_decode_ldST : decodeTableWord 16 0xF318 = some (.ldST 0x3) := by decide
theorem test_decode_addI : decodeTableWord 16 0xF11E = some (.addI 0x1) := by decide
theorem test_decode_ldFont : decodeTableWord 16 0xF229 = some (.ldFont 0x2) := by decide
theorem test_decode_ldBcd : decodeTableWord 16 0xF333 = some (.ldBcd 0x3) := by decide
theorem test_decode_storeRegs : decodeTableWord 16 0xFF55 = some (.storeRegs 0xF) := by decide
theorem test_decode_loadRegs : decodeTableWord 16 0xF465 = some (.loadRegs 0x4) := by decide

/-- The unmatched words of V30-1, with the class of R76 each falls in. -/
theorem test_unmatched :
    decodeWord 0x0000 = .error .unmatched0 ∧ decodeWord 0x00E1 = .error .unmatched0 ∧
    decodeWord 0x0123 = .error .unmatched0 ∧ decodeWord 0x5121 = .error .unmatched5 ∧
    decodeWord 0x8008 = .error .unmatched8 ∧ decodeWord 0x812F = .error .unmatched8 ∧
    decodeWord 0x9AB1 = .error .unmatched9 ∧ decodeWord 0xE19F = .error .unmatchedE ∧
    decodeWord 0xE1A0 = .error .unmatchedE ∧ decodeWord 0xF1FF = .error .unmatchedF ∧
    decodeWord 0xF156 = .error .unmatchedF := ⟨rfl, rfl, rfl, rfl, rfl, rfl, rfl, rfl, rfl, rfl, rfl⟩

/-! ## Single ticks (spec/95_test_vectors.md) -/

/-- Reset with a word where the next tick fetches, registers set. -/
def ready (w : Nat) (regs : List (Reg × Byte) := []) : State :=
  regs.foldl (fun s p => s.writeReg p.1 p.2) (State.reset.withFetchWord 16 w)

/-- Whether the report of a tick with `rng = some(0)` passes a check. -/
def ticked (s : State) (p : TickReport → Bool) : Bool :=
  match tick (some 0) s with
  | .ok r => p r
  | .error _ => false

/-- The cells lit in the rows and columns listed, all within the grid. -/
def litIn (fb : Framebuffer) (rows cols : List Nat) : List (Nat × Nat) :=
  rows.flatMap fun y => (cols.filter fun x => fbPixel fb y x).map fun x => (x, y)

theorem test_V40_1_unmatched_reset :
    ticked State.reset (fun r => r.state.pc == 0x202 && r.fault == none && !r.framebufferChanged) = true := by decide
theorem test_V40_5_fetch_fault :
    ticked { State.reset with pc := 0xFFF, dt := 5, st := 1 } (fun r => r.fault == some .memoryAccessError &&
      r.state.dt == 4 && r.state.st == 0 && r.state.pc == 0xFFF && !r.shouldBeep) = true := by decide
theorem test_V40_9_strict :
    ticked (State.construct { Config.default with strict := true })
      (fun r => r.fault == some .unknownOpcode && r.state.pc == 0x200) = true := by decide
theorem test_V41_1_ret_underflow :
    ticked (ready 0x00EE) (fun r => r.fault == some .stackUnderflow && r.state.pc == 0x200) = true := by decide
theorem test_V41_2_ret :
    ticked ({ State.reset with sp := 1, stack := State.reset.stack.set 0 0x20A, pc := 0x212 }.withFetchWord 16 0x00EE)
      (fun r => r.state.sp == 0 && r.state.pc == 0x20A && r.state.stack[0] == 0x20A) = true := by decide
theorem test_V41_5_call :
    ticked ({ State.reset with pc := 0x208 }.withFetchWord 16 0x220E)
      (fun r => r.state.sp == 1 && r.state.pc == 0x20E && r.state.stack[0] == 0x20A) = true := by decide
theorem test_V41_6_call_overflow :
    ticked { ready 0x2300 with sp := 16 } (fun r => r.fault == some .stackOverflow && r.state.sp == 16 &&
      r.state.pc == 0x200) = true := by decide
theorem test_V41_8_se : ticked (ready 0x3005 [(0, 5)]) (fun r => r.state.pc == 0x204) = true := by decide
theorem test_V41_9_se_not : ticked (ready 0x3005 [(0, 6)]) (fun r => r.state.pc == 0x202) = true := by decide
theorem test_V41_11_sne : ticked (ready 0x4005 [(0, 6)]) (fun r => r.state.pc == 0x204) = true := by decide
theorem test_V41_12_se_reg : ticked (ready 0x5010 [(0, 7), (1, 7)]) (fun r => r.state.pc == 0x204) = true := by decide
theorem test_V41_16_sne_reg : ticked (ready 0x9010 [(0, 7), (1, 8)]) (fun r => r.state.pc == 0x204) = true := by decide
theorem test_V41_18_jp_v0 : ticked (ready 0xBFFF [(0, 0xFF)]) (fun r => r.state.pc == 0x10FE) = true := by decide
theorem test_V42_4_add_imm_wraps :
    ticked (ready 0x7201 [(2, 0xFF), (0xF, 7)]) (fun r => r.state.readReg 2 == 0 && r.state.readReg 0xF == 7) = true := by
  decide
theorem test_V42_8_xor :
    ticked (ready 0x8013 [(0, 0xF0), (1, 0x3C), (0xF, 1)])
      (fun r => r.state.readReg 0 == 0xCC && r.state.readReg 0xF == 1) = true := by decide
theorem test_V42_12_add_255 :
    ticked (ready 0x8014 [(0, 0xFF), (1, 0), (0xF, 1)])
      (fun r => r.state.readReg 0 == 0xFF && r.state.readReg 0xF == 0) = true := by decide
theorem test_V42_16_add_into_vf :
    ticked (ready 0x8F14 [(0xF, 0xFF), (1, 2)]) (fun r => r.state.readReg 0xF == 1) = true := by decide
theorem test_sub_borrow :
    ticked (ready 0x8015 [(0, 0), (1, 1), (0xF, 1)])
      (fun r => r.state.readReg 0 == 0xFF && r.state.readReg 0xF == 0) = true := by decide
theorem test_subn_direction :
    ticked (ready 0x8017 [(0, 3), (1, 10)])
      (fun r => r.state.readReg 0 == 7 && r.state.readReg 0xF == 1) = true := by decide
theorem test_shr_ignores_y :
    ticked (ready 0x8016 [(0, 0x81), (1, 0x10)])
      (fun r => r.state.readReg 0 == 0x40 && r.state.readReg 0xF == 1) = true := by decide
theorem test_shl_drops_top :
    ticked (ready 0x801E [(0, 0x81), (1, 0x10)])
      (fun r => r.state.readReg 0 == 0x02 && r.state.readReg 0xF == 1) = true := by decide
theorem test_rnd_masks :
    (match tick (some 0xA7) (ready 0xC70F) with
      | .ok r => r.state.readReg 7 == 0x07
      | .error _ => false) = true := by decide
theorem test_rnd_failed_draw :
    (match tick none (ready 0xC7FF [(7, 9)]) with
      | .ok r => r.state.readReg 7 == 0 && r.fault == none
      | .error _ => false) = true := by decide
theorem test_V43_2c_add_i_wraps :
    ticked { ready 0xF11E [(1, 2), (0xF, 9)] with i := 0xFFFF }
      (fun r => r.state.i == 1 && r.state.readReg 0xF == 9) = true := by decide
theorem test_V43_3d_font_not_masked : ticked (ready 0xF229 [(2, 0x10)]) (fun r => r.state.i == 0x0A0) = true := by decide
theorem test_V43_4d_bcd :
    ticked { ready 0xF333 [(3, 255)] with i := 0xFFD } (fun r => [0xFFD, 0xFFE, 0xFFF].map r.state.byteAt == [2, 5, 5] &&
      r.state.i == 0xFFD) = true := by decide
theorem test_V43_4e_bcd_fault :
    ticked { ready 0xF333 [(3, 255)] with i := 0xFFE }
      (fun r => r.fault == some .memoryAccessError && r.state.byteAt 0xFFE == 0) = true := by decide
theorem test_V43_5e_store_inclusive :
    ticked { ready 0xF155 [(0, 0xAA), (1, 0xBB), (2, 0xCC)] with i := 0x400 }
      (fun r => [0x400, 0x401, 0x402].map r.state.byteAt == [0xAA, 0xBB, 0]) = true := by decide
theorem test_V43_6a_load :
    ticked { ready 0xF465 [(5, 0x99)] with i := 0x050 }
      (fun r => [(0 : Reg), 1, 2, 3, 4, 5].map r.state.readReg == [0xF0, 0x90, 0x90, 0x90, 0xF0, 0x99]) = true := by
  decide
theorem test_V44_3_clipping :
    ticked { (ready 0xD013 [(0, 62), (1, 30)]).setBytes 0x300 [0xFF, 0xFF, 0xFF] with i := 0x300 }
      (fun r => litIn r.state.fb [0, 29, 30, 31] [0, 1, 5, 61, 62, 63] == [(62, 30), (63, 30), (62, 31), (63, 31)] &&
        r.state.readReg 0xF == 0 && r.framebufferChanged) = true := by decide
theorem test_V44_9_vf_is_read_first :
    ticked { (ready 0xDF01 [(0xF, 5), (0, 2)]).setBytes 0x300 [0x80] with i := 0x300 }
      (fun r => fbPixel r.state.fb 2 5 && !fbPixel r.state.fb 2 0 && r.state.readReg 0xF == 0) = true := by decide
theorem test_V44_2_cls : ticked (ready 0x00E0) (fun r => r.framebufferChanged && !fbPixel r.state.fb 0 0) = true := by
  decide
theorem test_V44_14_view : (fbView (fbSetPixel fbClear 2 5 true))[133]? = some 1 := by
  simp only [fbView, List.getElem?_map]
  rw [List.getElem?_range (by decide)]
  decide
theorem test_V45_1_skp :
    ticked ((ready 0xE19E [(1, 4)]).setKey 4) (fun r => r.state.pc == 0x204) = true := by decide
theorem test_V45_5_key_fault :
    ticked ((ready 0xE1A1 [(1, 0x14)]).setKey 4) (fun r => r.fault == some .keyIndexError && r.state.pc == 0x200) = true := by
  decide
theorem test_V45_8_read_dt :
    ticked { ready 0xF207 with dt := 3 } (fun r => r.state.dt == 2 && r.state.readReg 2 == 2) = true := by decide
theorem test_V45_10_set_dt : ticked { ready 0xF015 [(0, 3)] with dt := 9 } (fun r => r.state.dt == 3) = true := by decide
theorem test_V45_11_set_st : ticked (ready 0xF018 [(0, 2)]) (fun r => r.state.st == 2 && r.shouldBeep) = true := by decide
theorem test_V45_14_beep_after_decrement :
    ticked { ready 0x6000 with st := 2 } (fun r => r.state.st == 1 && r.shouldBeep) = true := by decide
theorem test_V60_2_load_after_fault :
    (match tick none (ready 0x00EE) with
      | .ok r => ticked (r.state.load [0x12, 0x00]) (fun r => r.state.pc == 0x200 && r.fault == none)
      | .error _ => false) = true := by decide
theorem test_V45_15_key_wait :
    ticked { ready 0xF10A with dt := 4 }
      (fun r => r.state.dt == 3 && r.state.mode == .awaitingKey 1 && r.state.pc == 0x202) = true := by decide
theorem test_V45_17_lowest_key :
    ticked (({ State.reset with mode := .awaitingKey 1, dt := 3 }.setKey 7).setKey 4)
      (fun r => r.state.readReg 1 == 4 && r.state.mode == .running && r.state.dt == 3 && r.state.pc == 0x200) = true := by
  decide
theorem test_V20_3_load_keeps_tail :
    let s := (State.reset.load [0x11, 0x22, 0x33]).load [0xAA]
    [0x200, 0x201, 0x202].map s.byteAt = [0xAA, 0x22, 0x33] := by decide

/-! ## A state that meets the hypotheses of each statement, each clause at a boundary -/

/-- Reset with the program counter moved, then a word placed there. -/
def at_ (pc : Word) (w : Nat) : State := { State.reset with pc := pc }.withFetchWord 16 w

/-- Reset with other parameters. -/
def withConfig (strict : Bool) (p : KeyIndexPolicy) : State :=
  State.construct { Config.default with strict := strict, keyIndexPolicy := p }

theorem reset_word : decodeWord State.reset.opcodeAtPc = .error .unmatched0 := rfl

theorem witness_DecodeOfEncodeIsIdentity : (Instr.drw 0xF 0x0 0xF).WellFormed := by decide
theorem witness_EncodeOfDecodeIsIdentity : decodeWord 0x812E = .ok (.shl 1 2) := rfl
theorem witness_DecoderAgreesWithOpcodeMap :
    decodeWord 0xFF65 = .ok (.loadRegs 0xF) ∧ decodeWord 0xFF66 = .error .unmatchedF := ⟨rfl, rfl⟩
theorem witness_OpcodeRowsAreDisjoint :
    (⟨"CLS", .fixed, 0xFFFF, 0x00E0⟩ : OpcodeRow) ∈ opcodeTable ∧
      (⟨"CLS", .fixed, 0xFFFF, 0x00E0⟩ : OpcodeRow).selects 0x00E0 = true := by decide
theorem witness_StepRunsDecodedInstruction :
    let s := at_ 0xFFE 0x6007
    s.mode = .running ∧ s.pc.toNat + 1 < 4096 ∧
      decode [s.byteAt s.pc.toNat, s.byteAt (s.pc.toNat + 1)] = .ok (.ldImm 0 7, []) ∧ (Instr.ldImm 0 7).WellFormed :=
  ⟨rfl, by decide, rfl, by decide⟩
theorem witness_KeyWaitTickScansKeysInOrder :
    let s := { State.reset with mode := .awaitingKey 0xF }
    (s.mode = .awaitingKey 0xF ∧ s.NoKey) ∧
    ((s.setKey 15).mode = .awaitingKey 0xF ∧ (s.setKey 15).keyDown 15 = true ∧
      ∀ j : Nibble, j.toNat < (15 : Nibble).toNat → (s.setKey 15).keyDown j = false) ∧
    (((s.setKey 15).setKey 0).keyDown 0 = true ∧
      ∀ j : Nibble, j.toNat < (0 : Nibble).toNat → ((s.setKey 15).setKey 0).keyDown j = false) :=
  ⟨⟨rfl, by unfold State.NoKey; decide⟩, ⟨rfl, by decide, by decide⟩, by decide, by decide⟩
theorem witness_UnmatchedWordIsNoOpOrUnknownOpcode :
    (let s := withConfig false .fault
     s.mode = .running ∧ s.pc.toNat + 1 < 4096 ∧
       decode [s.byteAt s.pc.toNat, s.byteAt (s.pc.toNat + 1)] = .error .unmatched0 ∧ s.config.strict = false) ∧
    (let s := withConfig true .fault
     s.mode = .running ∧ s.pc.toNat + 1 < 4096 ∧
       decode [s.byteAt s.pc.toNat, s.byteAt (s.pc.toNat + 1)] = .error .unmatched0 ∧ s.config.strict = true) :=
  ⟨⟨rfl, by decide, rfl, rfl⟩, rfl, by decide, rfl, rfl⟩
theorem witness_FetchIsBigEndianAndChecked :
    (0xFFF ≤ ({ State.reset with pc := 0xFFF } : State).pc.toNat ∧
      ({ State.reset with pc := 0xFFF } : State).mode = .running) ∧
    ({ State.reset with pc := 0xFFE } : State).pc.toNat < 0xFFF := ⟨⟨by decide, rfl⟩, by decide⟩
theorem witness_TickRaisesExactlyTheListedConditions :
    (State.reset.Inv ∧ State.reset.cause = none) ∧
    (let s := { at_ 0x200 0x2300 with sp := 16 }; s.Inv ∧ s.cause = some .stackOverflow) ∧
    (let s := at_ 0x200 0x00EE; s.Inv ∧ s.cause = some .stackUnderflow) ∧
    (let s := { State.reset with pc := 0xFFF }; s.Inv ∧ s.cause = some .memoryAccessError) ∧
    (let s := { at_ 0x200 0xD003 with i := 0xFFE }; s.Inv ∧ s.cause = some .memoryAccessError) ∧
    (let s := { at_ 0x200 0xD003 with i := 0xFFD }; s.Inv ∧ s.cause = none) ∧
    (let s := withConfig true .fault; s.Inv ∧ s.cause = some .unknownOpcode) ∧
    (let s := (at_ 0x200 0xE09E).writeReg 0 16; s.Inv ∧ s.cause = some .keyIndexError) := by decide
theorem witness_FatalConditionIsPrecise :
    ∃ r, tick none (at_ 0x200 0x00EE) = .ok r ∧ r.fault = some .stackUnderflow := ⟨_, rfl, rfl⟩
theorem witness_FatalConditionRecurs :
    (∃ r, tick (some 1) { at_ 0x200 0x2200 with sp := 16 } = .ok r ∧ r.fault = some .stackOverflow) ∧
    (let s := at_ 0x200 0x00EE
     (∃ r, tick none s = .ok r ∧ r.fault = some .stackUnderflow) ∧ 0x200 ≤ s.pc.toNat ∧ s.pc.toNat + 1 < 4096 ∧
       ([0x12, 0x00] : List Byte)[s.pc.toNat - 0x200]? = some 0x12 ∧
       ([0x12, 0x00] : List Byte)[s.pc.toNat - 0x200 + 1]? = some 0x00 ∧
       decodeWord (composeOpcode 0x12 0x00) = .ok (.jp 0x200)) ∧
    (let s := at_ 0xFFE 0x00EE
     (∃ r, tick none s = .ok r ∧ r.fault = some .stackUnderflow) ∧ 0x200 ≤ s.pc.toNat ∧ s.pc.toNat + 1 < 4096) :=
  ⟨⟨_, rfl, rfl⟩, ⟨⟨_, rfl, rfl⟩, by decide, by decide, rfl, rfl, rfl⟩, ⟨_, rfl, rfl⟩, by decide, by decide⟩
theorem witness_FramebufferChangedMeansClsOrDrw :
    (∃ r, tick none (at_ 0x200 0x00E0) = .ok r ∧ r.framebufferChanged = true) ∧
    ∃ r, tick none State.reset = .ok r ∧ r.framebufferChanged = false := ⟨⟨_, rfl, rfl⟩, _, rfl, rfl⟩
theorem witness_TimersFallByAtMostOne :
    (∃ t, step { State.reset with mode := .awaitingKey 2 } = .next t) ∧
    (∃ t, step State.reset = .next t) ∧ State.reset.mode = .running ∧
    (∀ x, decodeWord State.reset.opcodeAtPc ≠ .ok (.ldDT x)) ∧ ∀ x, decodeWord State.reset.opcodeAtPc ≠ .ok (.ldST x) :=
  ⟨⟨_, rfl⟩, ⟨_, rfl⟩, rfl, by rw [reset_word]; simp, by rw [reset_word]; simp⟩
theorem witness_KeyWaitTimeline :
    let s := at_ 0xFFE 0xF10A
    s.mode = .running ∧ s.pc.toNat + 1 < 4096 ∧ decodeWord s.opcodeAtPc = .ok (.ldKey 1) ∧ s.NoKey ∧
      ∃ keys : Vector Bool 16, ({ s with keys := keys } : State).keyDown 15 = true ∧
        ∀ j : Nibble, j.toNat < (15 : Nibble).toNat → ({ s with keys := keys } : State).keyDown j = false :=
  ⟨rfl, by decide, rfl, by unfold State.NoKey; decide, (State.reset.setKey 15).keys, by decide, by decide⟩
theorem witness_KeyWaitWithoutKeyNeverEnds :
    let s := { State.reset with mode := .awaitingKey 0, dirty := true }
    s.mode = .awaitingKey 0 ∧ s.NoKey := ⟨rfl, by unfold State.NoKey; decide⟩
theorem witness_StepKeepsTheInvariants :
    State.reset.Inv ∧ (∃ t, step State.reset = .next t) ∧
    (({ at_ 0xFFE 0x2300 with sp := 15 } : State).Inv ∧ ∃ t, step { at_ 0xFFE 0x2300 with sp := 15 } = .next t) :=
  ⟨by decide, ⟨_, rfl⟩, by decide, _, rfl⟩
theorem witness_HostOperationsKeepTheInvariants :
    State.reset.Inv ∧ ((State.reset.load [1, 2]).setKey 3).Inv := by decide
theorem witness_JumpLoadsTheAddress : (0xFFF : Addr12) = 0xFFF ∧ State.reset.mode = .running := ⟨rfl, rfl⟩
theorem witness_JumpWithOffsetAddsV0 :
    ∃ t, exec (.jpV0 0xFFF) State.reset = .next t ∧ 0xFFF ≤ t.pc.toNat ∧ State.reset.mode = .running :=
  ⟨_, rfl, by decide, rfl⟩
theorem witness_CallPushesReturnAddress :
    State.reset.sp.toNat < 16 ∧ ({ State.reset with sp := 15 } : State).sp.toNat < 16 ∧
    (let s := { at_ 0xFFE 0x2300 with sp := 16 }
     s.sp = 16#8 ∧ s.mode = .running ∧ s.pc.toNat + 1 < 4096 ∧ decodeWord s.opcodeAtPc = .ok (.call 0x300)) :=
  ⟨by decide, by decide, rfl, rfl, by decide, rfl⟩
theorem witness_ReturnPopsTheStack :
    (1 ≤ ({ State.reset with sp := 1 } : State).sp.toNat ∧ ({ State.reset with sp := 1 } : State).sp.toNat ≤ 16) ∧
    (1 ≤ ({ State.reset with sp := 16 } : State).sp.toNat ∧ ({ State.reset with sp := 16 } : State).sp.toNat ≤ 16) ∧
    (let s := { State.reset with sp := 1, stack := State.reset.stack.set 0 0x1000 }
     s.Inv ∧ ∃ t, exec .ret s = .next t ∧ 0xFFF ≤ t.pc.toNat ∧ s.mode = .running) ∧
    (let s := at_ 0x200 0x00EE
     s.sp = 0#8 ∧ s.mode = .running ∧ s.pc.toNat + 1 < 4096 ∧ decodeWord s.opcodeAtPc = .ok .ret) :=
  ⟨by decide, by decide, ⟨by decide, _, rfl, by decide, rfl⟩, rfl, rfl, by decide, rfl⟩
theorem witness_ConditionalSkips :
    ∃ x y : Reg, x = y ∧ exec (.seReg x y) State.reset = .next { State.reset with pc := 0x204 } := ⟨3, 3, rfl, rfl⟩
theorem witness_flags_destination_not_vf : (0xE : Reg) ≠ .vf ∧ (0x0 : Reg) ≠ .vf := by decide
theorem witness_RandomByteIsMasked :
    let s := at_ 0xFFE 0xC70F
    s.mode = .running ∧ s.pc.toNat + 1 < 4096 ∧ decodeWord s.opcodeAtPc = .ok (.rnd 7 0x0F) := ⟨rfl, by decide, rfl⟩
theorem witness_OnlyRndReadsTheRandomSource :
    State.reset.mode = .running ∧ ∀ x kk, decodeWord State.reset.opcodeAtPc ≠ .ok (.rnd x kk) :=
  ⟨rfl, by rw [reset_word]; simp⟩
theorem witness_BcdStoresThreeDigits :
    ({ State.reset with i := 0xFFD } : State).i.toNat + 2 < 4096 ∧
    4096 ≤ ({ State.reset with i := 0xFFE } : State).i.toNat + 2 := by decide
theorem witness_register_dump_and_load :
    ({ State.reset with i := 0xFF0 } : State).i.toNat + (0xF : Reg).toNat < 4096 ∧
    4096 ≤ ({ State.reset with i := 0xFF1 } : State).i.toNat + (0xF : Reg).toNat := by decide
theorem witness_StoreIsSeenByTheNextFetch :
    let s := { State.reset with i := 0x202 }
    1 ≤ (1 : Reg).toNat ∧ s.i = s.pc + 2#16 ∧ s.i.toNat + (1 : Reg).toNat < 4096 := by decide
theorem witness_ClearScreenZeroesEveryCell :
    let s := at_ 0xFFE 0x00E0
    s.mode = .running ∧ s.pc.toNat + 1 < 4096 ∧ decodeWord s.opcodeAtPc = .ok .cls := ⟨rfl, by decide, rfl⟩
theorem witness_DrawXorsSpriteAndDetectsCollision :
    (0 < (3 : Nibble).toNat ∧ 4096 ≤ ({ State.reset with i := 0xFFE } : State).i.toNat + (3 : Nibble).toNat - 1) ∧
    ((3 : Nibble).toNat = 0 ∨ ({ State.reset with i := 0xFFD } : State).i.toNat + (3 : Nibble).toNat - 1 < 4096) ∧
    ((0 : Nibble).toNat = 0 ∨ ({ State.reset with i := 0xFFFF } : State).i.toNat + (0 : Nibble).toNat - 1 < 4096) := by
  decide
theorem witness_DrawTwiceRestoresTheFramebuffer :
    let s := { State.reset with i := 0x050 }
    (0xE : Reg) ≠ .vf ∧ (0 : Reg) ≠ .vf ∧ ((5 : Nibble).toNat = 0 ∨ s.i.toNat + (5 : Nibble).toNat - 1 < 4096) ∧
      ∀ cy cx, fbPixel s.fb cy cx = false := ⟨by decide, by decide, by decide, fbPixel_fbClear⟩
theorem witness_KeySkips :
    ((State.reset.writeReg 1 15).readReg 1).toNat = (15 : Nibble).toNat ∧
    (let s := (withConfig false .lowNibble).writeReg 1 0x1F
     15 < (s.readReg 1).toNat ∧ s.config.keyIndexPolicy = .lowNibble ∧ (s.readReg 1).toNat % 16 = (15 : Nibble).toNat) ∧
    (let s := (withConfig false .notPressed).writeReg 1 16
     15 < (s.readReg 1).toNat ∧ s.config.keyIndexPolicy = .notPressed) ∧
    (let s := (withConfig false .fault).writeReg 1 16
     15 < (s.readReg 1).toNat ∧ s.config.keyIndexPolicy = .fault) := by decide
/-- The state after a step that completes. -/
def after (s : State) : State :=
  match step s with
  | .next t => t
  | _ => s

theorem witness_DelayTimerReadAndWrite :
    (let s := at_ 0xFFE 0xF207
     s.mode = .running ∧ s.pc.toNat + 1 < 4096 ∧ decodeWord s.opcodeAtPc = .ok (.ldFromDT 2)) ∧
    (let s := State.reset.load [0xF0, 0x15, 0xF2, 0x07]
     s.mode = .running ∧ s.pc.toNat + 1 < 4096 ∧ decodeWord s.opcodeAtPc = .ok (.ldDT 0)) ∧
    (let f : Nat → State := fun k => after^[k] (State.reset.load [0xF0, 0x15, 0x60, 0x00, 0xF2, 0x07])
     ((f 0).mode = .running ∧ step (f 0) = .next (f 1)) ∧ ((f 1).mode = .running ∧ step (f 1) = .next (f 2)) ∧
     ((f 2).mode = .running ∧ step (f 2) = .next (f 3)) ∧ decodeWord (f 0).opcodeAtPc = .ok (.ldDT 0) ∧
     decodeWord (f 1).opcodeAtPc = .ok (.ldImm 0 0) ∧ decodeWord (f 2).opcodeAtPc = .ok (.ldFromDT 2)) :=
  ⟨⟨rfl, by decide, rfl⟩, ⟨rfl, by decide, rfl⟩, ⟨rfl, rfl⟩, ⟨rfl, rfl⟩, ⟨rfl, rfl⟩, rfl, rfl, rfl⟩
theorem witness_SoundTimerDrivesTheBeeper :
    (let s := at_ 0xFFE 0xF018
     s.mode = .running ∧ s.pc.toNat + 1 < 4096 ∧ decodeWord s.opcodeAtPc = .ok (.ldST 0)) ∧
    (let s := { State.reset with mode := .awaitingKey 1, st := 1 }
     (∃ r, tick none s = .ok r ∧ r.fault = none ∧ r.shouldBeep = true) ∧ s.mode = .awaitingKey 1) ∧
    (let s := { State.reset with st := 1 }
     (∃ r, tick none s = .ok r ∧ r.fault = none ∧ r.shouldBeep = false) ∧ s.mode = .running ∧
       ∀ x, decodeWord s.opcodeAtPc ≠ .ok (.ldST x)) :=
  ⟨⟨rfl, by decide, rfl⟩, ⟨⟨_, rfl, rfl, rfl⟩, rfl⟩, ⟨_, rfl, rfl, rfl⟩, rfl, by
    show ∀ x, decodeWord State.reset.opcodeAtPc ≠ .ok (.ldST x)
    rw [reset_word]; simp⟩
theorem witness_WaitForKeyStartsTheWait :
    (let s := at_ 0xFFE 0xF10A
     s.mode = .running ∧ s.pc.toNat + 1 < 4096 ∧ decodeWord s.opcodeAtPc = .ok (.ldKey 1)) ∧
    State.reset.NoKey ∧ (State.reset.setKey 15).keyDown 15 = true ∧
      ∀ j : Nibble, j.toNat < (15 : Nibble).toNat → (State.reset.setKey 15).keyDown j = false :=
  ⟨⟨rfl, by decide, rfl⟩, by unfold State.NoKey; decide, by decide, by decide⟩
theorem witness_RegistersWrittenOnlyAsListed :
    (∃ t, exec (.addReg 0 1) State.reset = .next t) ∧ writesReg (.addReg 0 1) 2 = false ∧ (0 : Reg) ≠ .vf :=
  ⟨⟨_, rfl⟩, rfl, by decide⟩
theorem witness_MemoryWrittenOnlyAsListed :
    let s := { State.reset with i := 0xFFD }
    (∃ t, exec (.ldBcd 0) s = .next t) ∧ 0xFFC < (storesTo (.ldBcd 0) s).1 ∧
      (storesTo (.ldBcd 0) s).1 + (storesTo (.ldBcd 0) s).2 ≤ 4096 := ⟨⟨_, rfl⟩, by decide, by decide⟩
theorem witness_SpecialStateWrittenOnlyAsListed :
    (∃ t, exec (.ldImm 0 1) State.reset = .next t) ∧ (∀ a, Instr.ldImm 0 1 ≠ .ldI a) ∧ Instr.ldImm 0 1 ≠ .ret :=
  ⟨⟨_, rfl⟩, by simp, by simp⟩
theorem witness_DirectivesAsListed :
    (∃ t, exec (.seImm 0 0) State.reset = .next t) ∧ Instr.seImm 0 0 ≠ .ret ∧ (∀ a, Instr.seImm 0 0 ≠ .jp a) ∧
      (∀ a, Instr.seImm 0 0 ≠ .call a) ∧ ∀ a, Instr.seImm 0 0 ≠ .jpV0 a :=
  ⟨⟨_, rfl⟩, by simp, by simp, by simp, by simp⟩
theorem witness_hidden_state_and_keypad :
    Instr.addI 0 ≠ .cls ∧ (∀ x y n, Instr.addI 0 ≠ .drw x y n) ∧ (∀ x, Instr.addI 0 ≠ .ldST x) ∧
      (∀ x, Instr.addI 0 ≠ .ldKey x) ∧ (∀ x, Instr.addI 0 ≠ .skp x) ∧ ∀ x, Instr.addI 0 ≠ .sknp x :=
  ⟨by simp, by simp, by simp, by simp, by simp, by simp⟩
theorem witness_LoadCopiesAndTruncates :
    (∃ bytes : List Byte, 3583 < bytes.length ∧ 0x200 + 3583 < 4096) ∧
      (0x1FF < 0x200 ∧ 0x200 + ([1] : List Byte).length ≤ 0x201) :=
  ⟨⟨List.replicate 3584 7, by rw [List.length_replicate]; decide, by decide⟩, by decide⟩
theorem witness_KeyOperationsSetLevels :
    (15 : Int) = ((15 : Nibble).toNat : Int) ∧ ((16 : Int) < 0 ∨ (15 : Int) < 16) ∧ ((-1 : Int) < 0 ∨ (15 : Int) < -1) := by
  decide
theorem witness_FramebufferViewIsRowMajor : 31 < 32 ∧ 63 < 64 ∧ 31 * 64 + 63 = 2047 := by decide

end Sys2Proof.Tests
end

section
/-! PROOFS. The one-byte access primitives and the host's `load` (20_memory.md R52, R53, R64). -/

namespace Sys2Proof.Machine

/-! ## One-byte accesses -/

theorem rangeOk_one (a : Nat) : rangeOk a 1 = decide (a < 4096) := by
  simp [rangeOk]

theorem State.memRead_one (s : State) (a : Nat) :
    s.memRead a 1 = if a < 4096 then .ok [s.byteAt a] else .error .memoryAccessError := by
  simp [State.memRead, rangeOk_one]

theorem State.memWrite_singleton (s : State) (a : Nat) (b : Byte) :
    s.memWrite a [b] = if a < 4096 then .ok (s.setByte a b) else .error .memoryAccessError := by
  simp [State.memWrite, rangeOk_one, State.setBytes]

/-- Settles O36: each clause of the bound picks one branch of the one-byte primitives, and a stored byte obeys the
read-after-write laws. -/
theorem memoryPrimitivesAreBoundsChecked : Obligations.MemoryPrimitivesAreBoundsChecked := by
  intro s a b
  rw [State.memRead_one, State.memWrite_singleton]
  constructor
  · intro (h : 4096 ≤ a)
    simp [Nat.not_lt.mpr h]
  · intro (h : a < 4096)
    rw [if_pos h, if_pos h]
    exact ⟨rfl, s.setByte a b, rfl, s.byteAt_setByte_same a b, fun c => s.byteAt_setByte_other b, rfl⟩

/-! ## `load` -/

/-- The bytes `load` keeps are those that fit below 4096. -/
theorem State.load_eq_setBytes (s : State) (bytes : List Byte) :
    s.load bytes = s.setBytes 0x200 (bytes.take 3584) := rfl

theorem State.byteAt_load_inside (s : State) (bytes : List Byte) {j : Nat} (h : j < bytes.length)
    (hj : 0x200 + j < 4096) : (s.load bytes).byteAt (0x200 + j) = bytes[j] := by
  have hkept : j < (bytes.take 3584).length := by rw [List.length_take]; omega
  rw [State.load_eq_setBytes, State.byteAt_setBytes_inside _ _ _ hkept, List.getElem_take]

theorem State.byteAt_load_outside (s : State) (bytes : List Byte) {a : Nat}
    (h : a < 0x200 ∨ 0x200 + bytes.length ≤ a ∨ 4096 ≤ a) : (s.load bytes).byteAt a = s.byteAt a := by
  have hout : a < 0x200 ∨ 0x200 + (bytes.take 3584).length ≤ a := by rw [List.length_take]; omega
  rw [State.load_eq_setBytes, State.byteAt_setBytes_outside _ _ _ hout]

/-- Settles O54: `load` stores the bytes that fit from 0x200 on, so the laws of `setBytes` say what every address
reads as. -/
theorem loadCopiesAndTruncates : Obligations.LoadCopiesAndTruncates := fun s bytes =>
  ⟨fun _ h hj => s.byteAt_load_inside bytes h hj, fun _ h => s.byteAt_load_outside bytes h,
    State.setBytes_eq s _ _⟩

end Sys2Proof.Machine
end

section
/-! PROOFS. The instruction words the source shows (30_encoding.md R82). -/

namespace Sys2Proof.Machine

/-- Settles O1: the words are closed, so the decoder (one conjunct per row of the table), the byte order and the field
extraction each evaluate to the table's entries. -/
theorem sourceWordsDecode : Obligations.SourceWordsDecode :=
  ⟨rfl, rfl, rfl, rfl, rfl, rfl, rfl, rfl⟩

end Sys2Proof.Machine
end

section
/-! PROOFS. The key-wait tick and the unmatched handler (40_tick_engine.md R92, R100). -/

namespace Sys2Proof.Machine

/-! ## The key-wait tick -/

/-- Settles O8: the scan ends the wait with the least key down, whose number fits a byte unchanged, or it finds no key
and only the dirty reset stands. -/
theorem keyWaitTickScansKeysInOrder : Obligations.KeyWaitTickScansKeysInOrder := by
  intro s t hm
  refine ⟨step_awaiting_none hm, fun k hk hleast => ⟨_, step_awaiting_some hm k hk hleast, ?_, ?_, rfl, rfl⟩⟩
  · rw [State.writeMode_readReg, State.readReg_writeReg_same, BitVec.toNat_setWidth_of_le (by decide)]
  · intro r hr
    exact State.readReg_writeReg_other s.resetDirty _ hr

/-! ## The unmatched handler -/

/-- An unmatched word with STRICT false: directive `Next`, and no write of its own. -/
theorem step_unmatched_lenient {s : State} {e : DecodeError} (hm : s.mode = .running) (hp : s.pc.toNat + 1 < 4096)
    (hd : decodeWord s.opcodeAtPc = .error e) (hs : s.config.strict = false) :
    step s = .next { s.beginRunning with pc := s.pc + 2#16 } := by
  simp [step_unmatched hm hp hd, execUnmatched_eq, hs]

/-- An unmatched word with STRICT true. -/
theorem step_unmatched_strict {s : State} {e : DecodeError} (hm : s.mode = .running) (hp : s.pc.toNat + 1 < 4096)
    (hd : decodeWord s.opcodeAtPc = .error e) (hs : s.config.strict = true) :
    step s = .fault .unknownOpcode := by
  simp [step_unmatched hm hp hd, execUnmatched_eq, hs]

/-- The rule's example: at reset the two bytes at `PC` are 0, which no row of the opcode map matches. -/
theorem tick_reset (rng : Option Byte) :
    tick rng State.reset = .ok (report { State.reset with pc := 0x202 } none) := by
  have hp : State.reset.pc.toNat + 1 < 4096 := by decide
  have hd : decodeWord State.reset.opcodeAtPc = .error .unmatched0 := rfl
  rw [← State.opcodeAtPc_withRng State.reset [rng]] at hd
  exact tick_of_next (step_unmatched_lenient (s := State.reset.withRng [rng]) rfl hp hd rfl)

/-- Settles O9: the step of an unmatched word in each mode of STRICT, and the tick from reset. -/
theorem unmatchedWordIsNoOpOrUnknownOpcode : Obligations.UnmatchedWordIsNoOpOrUnknownOpcode := by
  refine ⟨fun s e hm hp hpair => ?_, tick_reset⟩
  have hd : decodeWord s.opcodeAtPc = .error e := (decode_pair_error _ _ e).1 hpair
  exact ⟨fun hs => ⟨_, step_unmatched_lenient hm hp hd hs, rfl, timerDown_toNat s.dt, timerDown_toNat s.st⟩,
    step_unmatched_strict hm hp hd⟩

end Sys2Proof.Machine
end

section
/-! PROOFS. The conditional skips (41_control_flow.md R113 to R116). -/

namespace Sys2Proof.Machine

/-! ## `PC` after a skip on a comparison -/

theorem State.applyDirective_skipIf_beq_pc (s : State) (a b : Byte) :
    (s.applyDirective (skipIf (a == b))).pc = if a = b then s.pc + 4#16 else s.pc + 2#16 := by
  rw [State.applyDirective_skipIf_pc]
  simp only [beq_iff_eq]

theorem State.applyDirective_skipIf_bne_pc (s : State) (a b : Byte) :
    (s.applyDirective (skipIf (a != b))).pc = if a = b then s.pc + 2#16 else s.pc + 4#16 := by
  rw [State.applyDirective_skipIf_pc]
  simp only [bne_iff_ne, ite_not]

/-! ## What each skip answers -/

theorem exec_seImm (x : Reg) (kk : Byte) (s : State) :
    exec (.seImm x kk) s = .next (s.applyDirective (skipIf (s.readReg x == kk))) := rfl

theorem exec_sneImm (x : Reg) (kk : Byte) (s : State) :
    exec (.sneImm x kk) s = .next (s.applyDirective (skipIf (s.readReg x != kk))) := rfl

theorem exec_seReg (x y : Reg) (s : State) :
    exec (.seReg x y) s = .next (s.applyDirective (skipIf (s.readReg x == s.readReg y))) := rfl

theorem exec_sneReg (x y : Reg) (s : State) :
    exec (.sneReg x y) s = .next (s.applyDirective (skipIf (s.readReg x != s.readReg y))) := rfl

/-- Settles O26: each skip applies one directive, which moves `PC` alone, by 4 or 2 as its comparison says; with `x = y`
the comparison is of a register with itself. -/
theorem conditionalSkips : Obligations.ConditionalSkips := by
  intro s x y kk
  refine ⟨⟨_, exec_seImm x kk s, s.applyDirective_eq _, s.applyDirective_skipIf_beq_pc _ _⟩,
    ⟨_, exec_sneImm x kk s, s.applyDirective_eq _, s.applyDirective_skipIf_bne_pc _ _⟩,
    ⟨_, exec_seReg x y s, s.applyDirective_eq _, s.applyDirective_skipIf_beq_pc _ _, ?_⟩,
    ⟨_, exec_sneReg x y s, s.applyDirective_eq _, s.applyDirective_skipIf_bne_pc _ _, ?_⟩⟩
  · rintro rfl
    rw [State.applyDirective_skipIf_beq_pc, if_pos rfl]
  · rintro rfl
    rw [State.applyDirective_skipIf_bne_pc, if_pos rfl]

end Sys2Proof.Machine
end

section
/-! PROOFS. The register loads, ADD Vx,kk and ADD Vx,Vy (42_alu.md R130 to R132, R136). -/

namespace Sys2Proof.Machine

/-! ## Register writes, then the directive `Next` -/

theorem State.readReg_writeReg_applyDirective_same (s : State) (x : Reg) (b : Byte) (d : Directive) :
    ((s.writeReg x b).applyDirective d).readReg x = b := by
  rw [State.applyDirective_readReg, State.readReg_writeReg_same]

theorem State.changedOnlyRegs_writeReg (s : State) {x : Reg} {l : List Reg} (b : Byte) (hx : x ∈ l) :
    s.ChangedOnlyRegs ((s.writeReg x b).applyDirective .next) l := by
  refine ⟨fun r hr => ?_, rfl, rfl⟩
  rw [State.applyDirective_readReg, s.readReg_writeReg_other b (ne_of_mem_of_not_mem hx hr).symm]

/-- For a result and its flag, whichever of the two is written first. -/
theorem State.changedOnlyRegs_writeReg_writeReg (s : State) {x y : Reg} {l : List Reg} (a b : Byte) (hx : x ∈ l)
    (hy : y ∈ l) : s.ChangedOnlyRegs (((s.writeReg x a).writeReg y b).applyDirective .next) l := by
  refine ⟨fun r hr => ?_, rfl, rfl⟩
  have hrx : r ≠ x := (ne_of_mem_of_not_mem hx hr).symm
  have hry : r ≠ y := (ne_of_mem_of_not_mem hy hr).symm
  rw [State.applyDirective_readReg, State.readReg_writeReg_other _ b hry, State.readReg_writeReg_other s a hrx]

/-! ## The value of a flag -/

theorem flagByte_decide (p : Prop) [Decidable p] : flagByte (decide p) = if p then 1 else 0 := by
  simp only [flagByte, decide_eq_true_eq]

/-! ## What each instruction answers -/

theorem exec_ldImm (x : Reg) (kk : Byte) (s : State) :
    exec (.ldImm x kk) s = .next ((s.writeReg x kk).applyDirective .next) := rfl

theorem exec_addImm (x : Reg) (kk : Byte) (s : State) :
    exec (.addImm x kk) s = .next ((s.writeReg x (s.readReg x + kk)).applyDirective .next) := rfl

theorem exec_ldReg (x y : Reg) (s : State) :
    exec (.ldReg x y) s = .next ((s.writeReg x (s.readReg y)).applyDirective .next) := rfl

theorem exec_addReg (x y : Reg) (s : State) :
    exec (.addReg x y) s = .next (((s.writeReg x (s.readReg x + s.readReg y)).writeReg .vf
      (carryFlag (s.readReg x) (s.readReg y))).applyDirective .next) := rfl

/-- Settles O27: each instruction is one register write, read back from its destination; the sum of two bytes is the sum
modulo 256. -/
theorem loadsAndImmediateAdd : Obligations.LoadsAndImmediateAdd := by
  intro s x y kk
  have frame (b : Byte) : s.ChangedOnlyRegs ((s.writeReg x b).applyDirective .next) [x] :=
    s.changedOnlyRegs_writeReg b List.mem_cons_self
  refine ⟨⟨_, exec_ldImm x kk s, s.readReg_writeReg_applyDirective_same x _ _, frame _⟩,
    ⟨_, exec_addImm x kk s, ?_, frame _⟩,
    ⟨_, exec_ldReg x y s, s.readReg_writeReg_applyDirective_same x _ _, frame _⟩⟩
  rw [State.readReg_writeReg_applyDirective_same]
  exact BitVec.toNat_add _ _

/-- Settles O29: the carry is written last, so it stands in `V[F]` for every `x`, and the sum stands in `V[x]` when that
is another register. -/
theorem addRegistersSetsCarry : Obligations.AddRegistersSetsCarry := by
  intro s x y
  refine ⟨_, exec_addReg x y s, s.changedOnlyRegs_writeReg_writeReg _ _ (by simp) (by simp), fun hx => ?_, ?_⟩
  · rw [State.applyDirective_readReg, State.readReg_writeReg_other _ _ hx, State.readReg_writeReg_same]
    exact BitVec.toNat_add _ _
  · rw [State.readReg_writeReg_applyDirective_same]
    exact flagByte_decide _

end Sys2Proof.Machine
end

section
/-! PROOFS. LD I,nnn (43_index_memory.md R150). -/

namespace Sys2Proof.Machine

theorem exec_ldI (nnn : Addr12) (s : State) :
    exec (.ldI nnn) s = .next ((s.writeI (zextAddr nnn)).applyDirective .next) := rfl

theorem zextAddr_toNat (nnn : Addr12) : (zextAddr nnn).toNat = nnn.toNat :=
  BitVec.toNat_setWidth_of_le (by decide)

/-- Settles O34: the instruction is one write of `I`, and zero extension to 16 bits keeps the number. -/
theorem loadIndexImmediate : Obligations.LoadIndexImmediate := by
  intro s nnn
  refine ⟨_, exec_ldI nnn s, ?_, rfl⟩
  rw [State.applyDirective_i, State.writeI_i]
  exact zextAddr_toNat nnn

end Sys2Proof.Machine
end

section
/-! PROOFS. CLS (44_display.md R170). -/

namespace Sys2Proof.Machine

/-- The report of a tick whose instruction completes. -/
theorem tick_of_exec_next {s t : State} {rng : Option Byte} {i : Instr} (hm : s.mode = .running)
    (hp : s.pc.toNat + 1 < 4096) (hd : decodeWord s.opcodeAtPc = .ok i)
    (he : exec i (s.withRng [rng]).beginRunning = .next t) :
    tick rng s = .ok (report (t.withRng s.rngIn) none) := by
  rw [← State.opcodeAtPc_withRng s [rng]] at hd
  exact tick_of_next ((step_instr (s := s.withRng [rng]) hm hp hd).trans he)

theorem exec_cls (s : State) : exec .cls s = .next ((s.present fbClear).applyDirective .next) := rfl

/-- Settles O41: the instruction presents the clear framebuffer, so every cell reads 0 and `DIRTY` is set, and the tick
reports that `DIRTY`. -/
theorem clearScreenZeroesEveryCell : Obligations.ClearScreenZeroesEveryCell := by
  constructor
  · intro s
    refine ⟨_, exec_cls s, fun y x _ _ => ?_, ?_, rfl⟩
    · rw [State.applyDirective_fb, State.present_fb, fbPixel_fbClear]
    · rw [State.applyDirective_dirty, State.present_dirty]
  · intro s rng hm hp hd
    refine ⟨_, tick_of_exec_next hm hp hd (exec_cls _), ?_, rfl⟩
    change State.dirty _ = true
    rw [State.withRng_dirty, State.applyDirective_dirty, State.present_dirty]

end Sys2Proof.Machine
end

section
/-! PROOFS. LD Vx,DT and LD DT,Vx (45_keypad_timers.md R182, R184), and the delay timer over a run of Running ticks. -/

namespace Sys2Proof.Machine

/-! ## What an instruction other than LD DT,Vx leaves of `DT` -/

theorem dt_of_complete {s t u : State} {d : Directive} (h : complete d u = .next t) (hu : u.dt = s.dt) :
    t.dt = s.dt := by
  cases h
  rw [State.applyDirective_dt, hu]

/-- For an instruction with a check that raises. -/
theorem dt_of_checked {c : Prop} [Decidable c] {s t u : State} {f : Fault}
    (h : (if c then .next u else .fault f : Result) = .next t) (hu : u.dt = s.dt) : t.dt = s.dt := by
  split at h <;> cases h
  exact hu

/-- 10_state.md R26: LD DT,Vx is the only instruction that writes `DT`. -/
theorem exec_keeps_dt {i : Instr} {s t : State} (hi : ∀ x, i ≠ .ldDT x) (h : exec i s = .next t) : t.dt = s.dt := by
  cases i with
  | ldDT x => exact absurd rfl (hi x)
  | ret =>
    rw [exec_ret] at h
    split_ifs at h
    cases h
    rfl
  | call nnn =>
    rw [exec_call] at h
    split_ifs at h
    cases h
    rfl
  | skp x =>
    obtain ⟨_, _, he⟩ | ⟨_, _, he⟩ := exec_skp x s <;> cases he.symm.trans h
    rfl
  | sknp x =>
    obtain ⟨_, _, he⟩ | ⟨_, _, he⟩ := exec_sknp x s <;> cases he.symm.trans h
    rfl
  | drw x y n => exact dt_of_checked ((exec_drw x y n s).symm.trans h) (by simp)
  | ldBcd x => exact dt_of_checked ((exec_ldBcd x s).symm.trans h) (by simp)
  | storeRegs x => exact dt_of_checked ((exec_storeRegs x s).symm.trans h) (by simp)
  | loadRegs x => exact dt_of_checked ((exec_loadRegs x s).symm.trans h) (by simp)
  | rnd x kk => exact dt_of_complete h (by simp)
  | cls | jp nnn | seImm x kk | sneImm x kk | seReg x y | sneReg x y | ldImm x kk | addImm x kk | ldReg x y | orReg x y
  | andReg x y | xorReg x y | addReg x y | subReg x y | subnReg x y | shr x y | shl x y | ldI nnn | jpV0 nnn
  | ldFromDT x | ldKey x | ldST x | addI x | ldFont x => exact dt_of_complete h rfl

/-! ## `DT` over a Running tick -/

theorem fetchable_of_step_next {s t : State} (hm : s.mode = .running) (h : step s = .next t) :
    s.pc.toNat + 1 < 4096 := by
  by_contra hp
  rw [step_running_unfetchable hm hp] at h
  cases h

/-- 40_tick_engine.md R93: without a write of `DT`, a Running tick takes it one lower, not below 0. -/
theorem step_running_dt {s t : State} (hm : s.mode = .running) (hi : ∀ x, decodeWord s.opcodeAtPc ≠ .ok (.ldDT x))
    (h : step s = .next t) : t.dt.toNat = s.dt.toNat - 1 := by
  have hp := fetchable_of_step_next hm h
  have hdt : t.dt = s.beginRunning.dt := by
    cases hd : decodeWord s.opcodeAtPc with
    | ok i =>
      rw [step_instr hm hp hd] at h
      exact exec_keeps_dt (fun x hx => hi x (hx ▸ hd)) h
    | error e =>
      rw [step_unmatched hm hp hd, execUnmatched_eq] at h
      split at h <;> cases h
      rfl
  rw [hdt, State.beginRunning_dt, timerDown_toNat]

/-! ## The two instructions -/

theorem exec_ldFromDT (x : Reg) (s : State) :
    exec (.ldFromDT x) s = .next ((s.writeReg x s.dt).applyDirective .next) := rfl

theorem exec_ldDT (x : Reg) (s : State) :
    exec (.ldDT x) s = .next ((s.writeDT (s.readReg x)).applyDirective .next) := rfl

theorem step_ldFromDT {s : State} {x : Reg} (hm : s.mode = .running) (hp : s.pc.toNat + 1 < 4096)
    (hd : decodeWord s.opcodeAtPc = .ok (.ldFromDT x)) :
    step s = .next ((s.beginRunning.writeReg x (timerDown s.dt)).applyDirective .next) :=
  step_instr hm hp hd

theorem step_ldDT {s : State} {x : Reg} (hm : s.mode = .running) (hp : s.pc.toNat + 1 < 4096)
    (hd : decodeWord s.opcodeAtPc = .ok (.ldDT x)) :
    step s = .next ((s.beginRunning.writeDT (s.readReg x)).applyDirective .next) :=
  step_instr hm hp hd

/-- The tick of LD DT,Vx, from its next state, as a run gives it. -/
theorem dt_of_step_ldDT {s t : State} {x : Reg} (hm : s.mode = .running)
    (hd : decodeWord s.opcodeAtPc = .ok (.ldDT x)) (h : step s = .next t) : t.dt = s.readReg x := by
  rw [step_ldDT hm (fetchable_of_step_next hm h) hd] at h
  cases h
  rfl

/-- 45_keypad_timers.md R182: the value read is the one this tick's decrement leaves. -/
theorem readReg_of_step_ldFromDT {s t : State} {z : Reg} (hm : s.mode = .running)
    (hd : decodeWord s.opcodeAtPc = .ok (.ldFromDT z)) (h : step s = .next t) :
    (t.readReg z).toNat = s.dt.toNat - 1 := by
  rw [step_ldFromDT hm (fetchable_of_step_next hm h) hd] at h
  cases h
  rw [State.readReg_writeReg_applyDirective_same, timerDown_toNat]

/-- A run of Running ticks that writes `DT` in tick 0 only: at the start of tick `k + 1` it is `k` below the
value set, not below 0. -/
theorem dt_after_ldDT {f : Nat → State} {m : Nat} {x : Reg}
    (hrun : ∀ k, k ≤ m → (f k).mode = .running ∧ step (f k) = .next (f (k + 1)))
    (hset : decodeWord (f 0).opcodeAtPc = .ok (.ldDT x))
    (hnone : ∀ k, 0 < k → k < m → ∀ y, decodeWord (f k).opcodeAtPc ≠ .ok (.ldDT y)) :
    ∀ k, k < m → (f (k + 1)).dt.toNat = ((f 0).readReg x).toNat - k := by
  intro k hk
  induction k with
  | zero =>
    obtain ⟨hm, hs⟩ := hrun 0 (Nat.zero_le m)
    rw [dt_of_step_ldDT hm hset hs, Nat.sub_zero]
  | succ k ih =>
    obtain ⟨hm, hs⟩ := hrun (k + 1) hk.le
    rw [step_running_dt hm (hnone (k + 1) k.succ_pos hk) hs, ih (by omega), Nat.sub_sub]

/-- Settles O45: each instruction is one write after the tick's decrement; over a run the value set falls by one in each
tick up to the one that reads it, that one included. -/
theorem delayTimerReadAndWrite : Obligations.DelayTimerReadAndWrite := by
  refine ⟨fun s x => ⟨⟨_, exec_ldFromDT x s, s.readReg_writeReg_applyDirective_same x _ _,
    s.changedOnlyRegs_writeReg _ List.mem_cons_self⟩, exec_ldDT x s⟩, ?_, ?_⟩
  · intro s x hm hp
    refine ⟨fun hd => ?_, fun hd => ⟨_, step_ldDT hm hp hd, rfl⟩⟩
    have hs := step_ldFromDT hm hp hd
    refine ⟨_, hs, readReg_of_step_ldFromDT hm hd hs, ?_⟩
    rw [State.readReg_writeReg_applyDirective_same]
    rfl
  · intro f m x z hpos hrun hset hread hnone
    obtain ⟨hm, hs⟩ := hrun m le_rfl
    have hdt := dt_after_ldDT hrun hset hnone (m - 1) (by omega)
    rw [Nat.sub_add_cancel hpos] at hdt
    rw [readReg_of_step_ldFromDT hm hread hs, hdt, Nat.sub_sub, Nat.sub_add_cancel hpos]

end Sys2Proof.Machine
end

section
/-! PROOFS. LD Vx,K and the ticks of the wait it starts (45_keypad_timers.md R183). -/

namespace Sys2Proof.Machine

theorem exec_ldKey (x : Reg) (s : State) :
    exec (.ldKey x) s = .next ((s.writeMode (.awaitingKey x)).applyDirective .next) := rfl

/-- With no key down the first tick of the wait resets the dirty flag, and the later ones find it reset. -/
theorem run_awaiting_noKey {s : State} {x : Reg} (hm : s.mode = .awaitingKey x) (hn : s.NoKey) (n : Nat) :
    Host.Core.run Sys2Proof.core (n + 1) s = .next s.resetDirty := by
  induction n generalizing s with
  | zero => exact core_run_of_next 0 (step_awaiting_none hm hn)
  | succ n ih =>
    rw [core_run_of_next (n + 1) (step_awaiting_none hm hn)]
    exact ih (s := s.resetDirty) hm hn

/-- The tick that ends the wait, read off the law of the key-wait tick: it writes neither `PC` nor a timer. -/
theorem step_awaiting_leastKey {s : State} {x : Reg} (hm : s.mode = .awaitingKey x) {k : Nibble}
    (hk : s.keyDown k = true) (hleast : ∀ j : Nibble, j.toNat < k.toNat → s.keyDown j = false) :
    ∃ u, step s = .next u ∧ (u.readReg x).toNat = k.toNat ∧ u.mode = .running ∧ u.pc = s.pc ∧ u.dt = s.dt ∧
      u.st = s.st := by
  obtain ⟨u, hu, hread, -, hrunning, hframe⟩ := (keyWaitTickScansKeysInOrder s x hm).2 k hk hleast
  refine ⟨u, hu, hread, hrunning, ?_⟩
  rw [hframe]
  exact ⟨rfl, rfl, rfl⟩

/-- Settles O47: the instruction is one write of `MODE`; from there a run without a key stays in the wait, the
law of the key-wait tick ends it, and on a tick the instruction runs after the decrement. -/
theorem waitForKeyStartsTheWait : Obligations.WaitForKeyStartsTheWait := by
  constructor
  · intro s x
    have hwait : ((s.writeMode (.awaitingKey x)).applyDirective .next).mode = .awaitingKey x := rfl
    exact ⟨_, exec_ldKey x s, rfl, fun hn => run_awaiting_noKey hwait hn,
      fun _ hk hleast => step_awaiting_leastKey hwait hk hleast⟩
  · intro s x hm hp hd
    exact ⟨_, (step_instr hm hp hd).trans (exec_ldKey x _), rfl, rfl, rfl, timerDown_toNat s.dt,
      timerDown_toNat s.st⟩

end Sys2Proof.Machine
end

section
/-! PROOFS. The host's set_key and unset_key (60_exceptions.md R205). -/

namespace Sys2Proof.Machine

/-! ## One key's level, set from an integer index -/

theorem State.setKeyLevel_nibble (s : State) (k : Nibble) (level : Bool) :
    s.setKeyLevel k.toNat level = { s with keys := s.keys.set k.toNat level k.isLt } :=
  dif_pos ⟨by omega, by omega⟩

theorem State.setKeyLevel_outside (s : State) {i : Int} (h : i < 0 ∨ 15 < i) (level : Bool) :
    s.setKeyLevel i level = s :=
  dif_neg (by omega)

/-- An integer is the number of a key, or it is out of range. -/
theorem keyIndex_cases (i : Int) : (∃ k : Nibble, i = k.toNat) ∨ (i < 0 ∨ 15 < i) := by
  by_cases h : 0 ≤ i ∧ i ≤ 15
  · refine .inl ⟨BitVec.ofNat 4 i.toNat, ?_⟩
    rw [BitVec.toNat_ofNat]
    omega
  · exact .inr (by omega)

theorem State.keyDown_setKeyLevel_same (s : State) (k : Nibble) (level : Bool) :
    (s.setKeyLevel k.toNat level).keyDown k = level := by
  rw [setKeyLevel_nibble]
  exact Vector.getElem_set_self k.isLt

theorem State.keyDown_setKeyLevel_of_ne (s : State) {j k : Nibble} (h : j ≠ k) (level : Bool) :
    (s.setKeyLevel k.toNat level).keyDown j = s.keyDown j := by
  rw [setKeyLevel_nibble]
  exact Vector.getElem_set_ne k.isLt j.isLt fun he => h (BitVec.eq_of_toNat_eq he.symm)

theorem State.setKeyLevel_eq_with_keys (s : State) (i : Int) (level : Bool) :
    s.setKeyLevel i level = { s with keys := (s.setKeyLevel i level).keys } := by
  obtain ⟨k, rfl⟩ | hout := keyIndex_cases i
  · rw [setKeyLevel_nibble]
  · rw [s.setKeyLevel_outside hout]

theorem State.setKeyLevel_idem (s : State) (i : Int) (level : Bool) :
    (s.setKeyLevel i level).setKeyLevel i level = s.setKeyLevel i level := by
  obtain ⟨k, rfl⟩ | hout := keyIndex_cases i
  · simp only [setKeyLevel_nibble, Vector.set_set]
  · rw [setKeyLevel_outside _ hout]

/-- Settles O55: the two operations are one write of a level, `true` or `false`, whose laws hold for either. -/
theorem keyOperationsSetLevels : Obligations.KeyOperationsSetLevels := by
  intro s i
  refine ⟨?_, fun hout => ⟨s.setKeyLevel_outside hout true, s.setKeyLevel_outside hout false⟩,
    s.setKeyLevel_eq_with_keys i true, s.setKeyLevel_eq_with_keys i false,
    s.setKeyLevel_idem i true, s.setKeyLevel_idem i false⟩
  rintro k rfl
  exact ⟨s.keyDown_setKeyLevel_same k true, s.keyDown_setKeyLevel_same k false, fun j hj =>
    ⟨s.keyDown_setKeyLevel_of_ne hj true, s.keyDown_setKeyLevel_of_ne hj false⟩⟩

end Sys2Proof.Machine
end

section
/-! PROOFS. The state after `construct()` (70_reset_and_hazards.md R220, R221). -/

namespace Sys2Proof.Machine

/-! ## The reset contents of memory: FONT, and 0 around it -/

theorem unlistedByte_font (font : Vector Byte 80) (k : Fin 80) : unlistedByte font (0x050 + k) = font[k] := by
  have hin : Config.fontBase ≤ 0x050 + k ∧ 0x050 + k < Config.fontBase + 80 :=
    ⟨Nat.le_add_right _ _, Nat.add_lt_add_left k.isLt _⟩
  rw [unlistedByte, dif_pos hin]
  simp

theorem unlistedByte_outside_font (font : Vector Byte 80) {a : Nat} (h : a < 0x050 ∨ 0x09F < a) :
    unlistedByte font a = 0 :=
  dif_neg (by unfold Config.fontBase; omega)

/-! ## What each accessor reads after `construct()` -/

@[simp] theorem State.construct_byteAt (c : Config) (a : Nat) :
    (State.construct c).byteAt a = unlistedByte c.font a := rfl

@[simp] theorem State.construct_fb (c : Config) : (State.construct c).fb = fbClear := rfl

@[simp] theorem State.construct_readReg (c : Config) (r : Reg) : (State.construct c).readReg r = 0 :=
  Vector.getElem_replicate _

theorem State.construct_stack (c : Config) (k : Fin 16) : (State.construct c).stack[k] = 0 :=
  Vector.getElem_replicate _

theorem State.construct_noKey (c : Config) : (State.construct c).NoKey :=
  fun _ => Vector.getElem_replicate _

/-- Settles O18: registers, stack, keys and framebuffer are uniform, memory lists nothing and so reads as its reset
contents, and every other field is the constant the rule names. -/
theorem constructGivesTheResetState : Obligations.ConstructGivesTheResetState := by
  refine ⟨fun c => ⟨State.construct_readReg c, rfl, rfl, State.construct_stack c, rfl, rfl, rfl,
    State.construct_noKey c, rfl, fun y x => ?_, rfl, rfl, fun k => ?_, fun a _ hout => ?_⟩, fun _ => rfl⟩
  · rw [State.construct_fb, fbPixel_fbClear]
  · rw [State.construct_byteAt, unlistedByte_font]
  · rw [State.construct_byteAt, unlistedByte_outside_font c.font hout]

end Sys2Proof.Machine
end

section
/-! PROOFS. The decoder, the encoder and the opcode map, through the fields of a word (30_encoding.md sections 1, 3, 4
and 6). -/

namespace Sys2Proof.Machine

/-! ## The fields of a word written by its fields -/

@[simp] theorem opN0_nnn (m : Nibble) (nnn : Addr12) : opN0 (m ++ nnn) = m :=
  BitVec.extractLsb'_append_eq_left ..

@[simp] theorem opNnn_nnn (m : Nibble) (nnn : Addr12) : opNnn (m ++ nnn) = nnn :=
  BitVec.extractLsb'_append_eq_right ..

@[simp] theorem opN0_xkk (m : Nibble) (x : Reg) (kk : Byte) : opN0 (m ++ x ++ kk) = m := by
  rw [BitVec.append_assoc]
  exact opN0_nnn m (x ++ kk)

@[simp] theorem opX_xkk (m : Nibble) (x : Reg) (kk : Byte) : opX (m ++ x ++ kk) = x := by
  rw [opX, BitVec.extractLsb'_append_eq_of_le (by decide)]
  exact BitVec.extractLsb'_append_eq_right ..

@[simp] theorem opKk_xkk (m : Nibble) (x : Reg) (kk : Byte) : opKk (m ++ x ++ kk) = kk :=
  BitVec.extractLsb'_append_eq_right ..

@[simp] theorem opN0_xyn (m : Nibble) (x y : Reg) (n : Nibble) : opN0 (m ++ x ++ y ++ n) = m := by
  rw [BitVec.append_assoc]
  exact opN0_xkk m x (y ++ n)

@[simp] theorem opX_xyn (m : Nibble) (x y : Reg) (n : Nibble) : opX (m ++ x ++ y ++ n) = x := by
  rw [BitVec.append_assoc]
  exact opX_xkk m x (y ++ n)

@[simp] theorem opY_xyn (m : Nibble) (x y : Reg) (n : Nibble) : opY (m ++ x ++ y ++ n) = y := by
  rw [opY, BitVec.extractLsb'_append_eq_of_le (by decide)]
  exact BitVec.extractLsb'_append_eq_right ..

@[simp] theorem opN_xyn (m : Nibble) (x y : Reg) (n : Nibble) : opN (m ++ x ++ y ++ n) = n :=
  BitVec.extractLsb'_append_eq_right ..

/-! ## A word rebuilt from its fields, where the fixed ones are known -/

theorem opX_append_opKk (op : Word) : opX op ++ opKk op = opNnn op :=
  BitVec.extractLsb'_append_extractLsb'_eq_extractLsb' rfl

theorem opY_append_opN (op : Word) : opY op ++ opN op = opKk op :=
  BitVec.extractLsb'_append_extractLsb'_eq_extractLsb' rfl

section
variable {op : Word} {m : Nibble} (hm : opN0 op = m)
include hm

theorem word_eq_nnn : m ++ opNnn op = op := by
  subst hm
  exact (BitVec.extractLsb'_append_extractLsb'_eq_extractLsb' rfl).trans BitVec.extractLsb'_eq_self

theorem word_eq_xkk : m ++ opX op ++ opKk op = op := by
  rw [BitVec.append_assoc, opX_append_opKk]
  exact word_eq_nnn hm

theorem word_eq_x {d : Byte} (hd : opKk op = d) : m ++ opX op ++ d = op :=
  hd ▸ word_eq_xkk hm

theorem word_eq_xyn : m ++ opX op ++ opY op ++ opN op = op := by
  rw [BitVec.append_assoc, opY_append_opN]
  exact word_eq_xkk hm

theorem word_eq_xy {d : Nibble} (hd : opN op = d) : m ++ opX op ++ opY op ++ d = op :=
  hd ▸ word_eq_xyn hm

end

/-! ## Decoding an encoded instruction -/

theorem decodeWord_encode (i : Instr) : decodeWord (encode i) = .ok i := by
  cases i with
  | cls | ret => rfl
  | jp nnn | call nnn | ldI nnn | jpV0 nnn | seImm x kk | sneImm x kk | ldImm x kk | addImm x kk | rnd x kk
  | drw x y n | seReg x y | sneReg x y => simp [encode, decodeWord]
  | ldReg x y | orReg x y | andReg x y | xorReg x y | addReg x y | subReg x y | shr x y | subnReg x y | shl x y =>
    simp [encode, decodeWord, decode8]
  | skp x | sknp x => simp [encode, decodeWord, decodeE]
  | ldFromDT x | ldKey x | ldDT x | ldST x | addI x | ldFont x | ldBcd x | storeRegs x | loadRegs x =>
    simp [encode, decodeWord, decodeF]

/-- The two bytes in memory compose the opcode again (30_encoding.md R83, 20_memory.md R56). -/
theorem composeOpcode_bytes (op : Word) : composeOpcode (op.extractLsb' 8 8) (op.extractLsb' 0 8) = op :=
  (BitVec.extractLsb'_append_extractLsb'_eq_extractLsb' rfl).trans BitVec.extractLsb'_eq_self

/-- Settles O2: the two bytes compose the encoded word, whose fields are the instruction's own. -/
theorem decodeOfEncodeIsIdentity : Obligations.DecodeOfEncodeIsIdentity := by
  intro i rest _
  simp only [encodeBytes, opcodeBytes, List.cons_append, List.nil_append, decode, composeOpcode_bytes,
    decodeWord_encode]

/-! ## Which words decode, and to what -/

/-- The class of unmatched words that an error names (30_encoding.md R76); a word is never truncated. -/
def Unmatched (op : Word) : DecodeError → Prop
  | .truncated => False
  | .unmatched0 => opN0 op = 0x0 ∧ opNnn op ≠ 0x0E0 ∧ opNnn op ≠ 0x0EE
  | .unmatched5 => opN0 op = 0x5 ∧ opN op ≠ 0
  | .unmatched8 => opN0 op = 0x8 ∧ opN op ∈ [(0x8 : Nibble), 0x9, 0xA, 0xB, 0xC, 0xD, 0xF]
  | .unmatched9 => opN0 op = 0x9 ∧ opN op ≠ 0
  | .unmatchedE => opN0 op = 0xE ∧ opKk op ≠ 0x9E ∧ opKk op ≠ 0xA1
  | .unmatchedF => opN0 op = 0xF ∧ opKk op ∉ [(0x07 : Byte), 0x0A, 0x15, 0x18, 0x1E, 0x29, 0x33, 0x55, 0x65]

/-- What decoding a word may answer: an instruction that encodes to it, or the name of its class. -/
def DecodesWell (op : Word) (r : Except DecodeError Instr) : Prop :=
  match r with
  | .ok i => encode i = op
  | .error e => Unmatched op e

/-! Each decoder by the arms of its own match; the last arm of `decodeWord` is the one major opcode left. -/

theorem decode0_decodesWell {op : Word} (h0 : opN0 op = 0x0) : DecodesWell op (decode0 op) := by
  have hw := word_eq_nnn h0
  unfold decode0
  split
  case h_1 h | h_2 h => rw [h] at hw; exact hw
  case h_3 h h' => exact ⟨h0, h, h'⟩

theorem decode8_decodesWell {op : Word} (h0 : opN0 op = 0x8) : DecodesWell op (decode8 op) := by
  unfold decode8
  split
  case h_1 h | h_2 h | h_3 h | h_4 h | h_5 h | h_6 h | h_7 h | h_8 h | h_9 h => exact word_eq_xy h0 h
  case h_10 => exact ⟨h0, by simp only [imp_false, List.mem_cons] at *; bv_omega⟩

theorem decodeE_decodesWell {op : Word} (h0 : opN0 op = 0xE) : DecodesWell op (decodeE op) := by
  unfold decodeE
  split
  case h_1 h | h_2 h => exact word_eq_x h0 h
  case h_3 h h' => exact ⟨h0, h, h'⟩

theorem decodeF_decodesWell {op : Word} (h0 : opN0 op = 0xF) : DecodesWell op (decodeF op) := by
  unfold decodeF
  split
  case h_1 h | h_2 h | h_3 h | h_4 h | h_5 h | h_6 h | h_7 h | h_8 h | h_9 h => exact word_eq_x h0 h
  case h_10 => exact ⟨h0, by simp; tauto⟩

theorem decodeWord_decodesWell (op : Word) : DecodesWell op (decodeWord op) := by
  unfold decodeWord
  split
  case h_1 h0 => exact decode0_decodesWell h0
  case h_2 h0 | h_3 h0 | h_11 h0 | h_12 h0 => exact word_eq_nnn h0
  case h_4 h0 | h_5 h0 | h_7 h0 | h_8 h0 | h_13 h0 => exact word_eq_xkk h0
  case h_6 h0 | h_10 h0 =>
    split
    case isTrue h => exact word_eq_xy h0 h
    case isFalse h => exact ⟨h0, h⟩
  case h_9 h0 => exact decode8_decodesWell h0
  case h_14 h0 => exact word_eq_xyn h0
  case h_15 h0 => exact decodeE_decodesWell h0
  case h_16 => exact decodeF_decodesWell (by simp only [imp_false] at *; bv_omega)

theorem encode_of_decodeWord {op : Word} {i : Instr} (h : decodeWord op = .ok i) : encode i = op := by
  have hw := decodeWord_decodesWell op
  rwa [h] at hw

/-- Settles O3: the decoder answers only what encodes to the word, and every instruction is well-formed by its types. -/
theorem encodeOfDecodeIsIdentity : Obligations.EncodeOfDecodeIsIdentity :=
  fun _ i h => ⟨encode_of_decodeWord h, Laws.Encoding.wellFormed i⟩

theorem decodeWord_eq_error_iff (op : Word) (e : DecodeError) : decodeWord op = .error e ↔ Unmatched op e := by
  constructor
  · intro h
    have hw := decodeWord_decodesWell op
    rwa [h] at hw
  · intro h
    cases e with
    | truncated => exact h.elim
    | unmatched0 | unmatchedE | unmatchedF =>
      simp only [decodeWord, h.1, decode0, decodeE, decodeF]
      split <;> simp_all [Unmatched]
    | unmatched5 | unmatched9 =>
      simp only [decodeWord, h.1]
      exact if_neg h.2
    | unmatched8 =>
      obtain ⟨h0, hn⟩ := h
      simp only [List.mem_cons, List.not_mem_nil, or_false] at hn
      rcases hn with hn | hn | hn | hn | hn | hn | hn <;> simp [decodeWord, decode8, h0, hn]

/-- Settles O6: the decoder answers an error exactly on the words of its class. -/
theorem unmatchedWordsAreExactlyListed : Obligations.UnmatchedWordsAreExactlyListed := fun op =>
  ⟨decodeWord_eq_error_iff op _, decodeWord_eq_error_iff op _, decodeWord_eq_error_iff op _,
    decodeWord_eq_error_iff op _, decodeWord_eq_error_iff op _, decodeWord_eq_error_iff op _,
    (decodeWord_eq_error_iff op .truncated).1⟩

/-! ## The table -/

/-- A row that selects a word agrees with it on every field its mask covers. -/
theorem extract_of_selects {r : OpcodeRow} {op : Word} (h : r.selects op = true) {k len : Nat}
    (hm : r.mask.extractLsb' k len = BitVec.allOnes len) : op.extractLsb' k len = r.matchBits.extractLsb' k len := by
  have h : op &&& r.mask = r.matchBits := eq_of_beq h
  rw [← h, BitVec.extractLsb'_and, hm, BitVec.and_allOnes]

/-- Every mask covers the major opcode, and the field that tells the rows of that major opcode apart. -/
theorem opcodeTable_mask {r : OpcodeRow} (hr : r ∈ opcodeTable) : opN0 r.mask = 0xF ∧
    (opN0 r.matchBits = 0x0 → opNnn r.mask = 0xFFF) ∧
    (opN0 r.matchBits ∈ [(0x5 : Nibble), 0x8, 0x9] → opN r.mask = 0xF) ∧
    (opN0 r.matchBits ∈ [(0xE : Nibble), 0xF] → opKk r.mask = 0xFF) := by
  revert r; decide

theorem opcodeTable_matchBits_decode {r : OpcodeRow} (hr : r ∈ opcodeTable) : (decodeWord r.matchBits).isOk = true := by
  revert r; decide

/-- The classes are given by fields that the masks cover. -/
theorem unmatched_matchBits {r : OpcodeRow} {op : Word} {e : DecodeError} (hr : r ∈ opcodeTable)
    (hs : r.selects op = true) (hu : Unmatched op e) : Unmatched r.matchBits e := by
  obtain ⟨h0, hnnn, hn, hkk⟩ := opcodeTable_mask hr
  replace h0 : opN0 op = opN0 r.matchBits := extract_of_selects hs h0
  replace hnnn h : opNnn op = opNnn r.matchBits := extract_of_selects hs (hnnn h)
  replace hn h : opN op = opN r.matchBits := extract_of_selects hs (hn h)
  replace hkk h : opKk op = opKk r.matchBits := extract_of_selects hs (hkk h)
  cases e with
  | truncated => exact hu
  | unmatched0 =>
    simp only [Unmatched, h0] at hu ⊢
    rwa [hnnn hu.1] at hu
  | unmatched5 | unmatched8 | unmatched9 =>
    simp only [Unmatched, h0] at hu ⊢
    rwa [hn (by simp [hu.1])] at hu
  | unmatchedE | unmatchedF =>
    simp only [Unmatched, h0] at hu ⊢
    rwa [hkk (by simp [hu.1])] at hu

theorem selects_eq_false_of_decode_error {r : OpcodeRow} {op : Word} {e : DecodeError} (hr : r ∈ opcodeTable)
    (hd : decodeWord op = .error e) : r.selects op = false := by
  by_contra hs
  have hm := unmatched_matchBits hr (by simpa using hs) ((decodeWord_eq_error_iff op e).1 hd)
  have hok := opcodeTable_matchBits_decode hr
  rw [(decodeWord_eq_error_iff _ e).2 hm] at hok
  cases hok

/-- Rows whose match bits agree on the bits both masks cover are the same row. -/
theorem opcodeTable_disjoint : ∀ r₁ ∈ opcodeTable, ∀ r₂ ∈ opcodeTable,
    r₁.matchBits &&& r₂.mask = r₂.matchBits &&& r₁.mask → r₁ = r₂ := by
  decide

theorem matchBits_and_mask_of_selects {r₁ r₂ : OpcodeRow} {op : Word} (h₁ : r₁.selects op = true)
    (h₂ : r₂.selects op = true) : r₁.matchBits &&& r₂.mask = r₂.matchBits &&& r₁.mask := by
  have h₁ : op &&& r₁.mask = r₁.matchBits := eq_of_beq h₁
  have h₂ : op &&& r₂.mask = r₂.matchBits := eq_of_beq h₂
  rw [← h₁, ← h₂, BitVec.and_assoc, BitVec.and_assoc, BitVec.and_comm r₁.mask]

/-- Settles O5: two rows that select one word agree on the bits both masks cover, which no two rows of the table do. -/
theorem opcodeRowsAreDisjoint : Obligations.OpcodeRowsAreDisjoint :=
  ⟨rfl, fun _ r₁ r₂ hr₁ hr₂ h₁ h₂ =>
    opcodeTable_disjoint r₁ hr₁ r₂ hr₂ (matchBits_and_mask_of_selects h₁ h₂)⟩

/-- Every instruction's row of the table, from the law of each. -/
theorem encoding_statement (i : Instr) : Laws.Encoding.Statement i := by
  cases i with
  | cls => exact Laws.Encoding.cls
  | ret => exact Laws.Encoding.ret
  | jp a => exact Laws.Encoding.jp a
  | call a => exact Laws.Encoding.call a
  | seImm x k => exact Laws.Encoding.seImm x k
  | sneImm x k => exact Laws.Encoding.sneImm x k
  | seReg x y => exact Laws.Encoding.seReg x y
  | ldImm x k => exact Laws.Encoding.ldImm x k
  | addImm x k => exact Laws.Encoding.addImm x k
  | ldReg x y => exact Laws.Encoding.ldReg x y
  | orReg x y => exact Laws.Encoding.orReg x y
  | andReg x y => exact Laws.Encoding.andReg x y
  | xorReg x y => exact Laws.Encoding.xorReg x y
  | addReg x y => exact Laws.Encoding.addReg x y
  | subReg x y => exact Laws.Encoding.subReg x y
  | shr x y => exact Laws.Encoding.shr x y
  | subnReg x y => exact Laws.Encoding.subnReg x y
  | shl x y => exact Laws.Encoding.shl x y
  | sneReg x y => exact Laws.Encoding.sneReg x y
  | ldI a => exact Laws.Encoding.ldI a
  | jpV0 a => exact Laws.Encoding.jpV0 a
  | rnd x k => exact Laws.Encoding.rnd x k
  | drw x y n => exact Laws.Encoding.drw x y n
  | skp x => exact Laws.Encoding.skp x
  | sknp x => exact Laws.Encoding.sknp x
  | ldFromDT x => exact Laws.Encoding.ldFromDT x
  | ldKey x => exact Laws.Encoding.ldKey x
  | ldDT x => exact Laws.Encoding.ldDT x
  | ldST x => exact Laws.Encoding.ldST x
  | addI x => exact Laws.Encoding.addI x
  | ldFont x => exact Laws.Encoding.ldFont x
  | ldBcd x => exact Laws.Encoding.ldBcd x
  | storeRegs x => exact Laws.Encoding.storeRegs x
  | loadRegs x => exact Laws.Encoding.loadRegs x

/-- Settles O4: a word that decodes is the encoding of its instruction, so that instruction's row selects it; a rejected
word is in a class that the match bits of a selecting row would be in too. -/
theorem decoderAgreesWithOpcodeMap : Obligations.DecoderAgreesWithOpcodeMap := by
  refine ⟨fun op i hd => ?_, fun op e hd r hr => selects_eq_false_of_decode_error hr hd⟩
  obtain ⟨-, r, hr, hmnemonic, hformat, hword, hselects⟩ := encoding_statement i
  rw [encode_of_decodeWord hd] at hword hselects
  exact ⟨r, hr, hselects, hmnemonic, hformat, hword⟩

end Sys2Proof.Machine
end

section
/-! PROOFS. What an instruction that completes has done: its handler's writes and its directive, read off once for every
instruction, and the frames that follow from it (10_state.md, 20_memory.md, 40_tick_engine.md R96). -/

namespace Sys2Proof.Machine

/-! ## One inversion of `exec` -/

/-- What a handler that completes may have written, `PC` apart: `u` is the state it leaves. -/
def HandlerWrites (i : Instr) (s u : State) : Prop :=
  match i with
  | .ldImm x _ | .addImm x _ | .ldReg x _ | .orReg x _ | .andReg x _ | .xorReg x _ | .ldFromDT x =>
    ∃ b, u = s.writeReg x b
  | .rnd x _ => ∃ b, u = s.drawDone.writeReg x b
  | .addReg x _ => ∃ b c, u = (s.writeReg x b).writeReg .vf (flagByte c)
  | .subReg x _ | .subnReg x _ | .shr x _ | .shl x _ => ∃ b c, u = (s.writeReg .vf (flagByte c)).writeReg x b
  | .loadRegs x => ∃ l : List Byte, l.length = x.toNat + 1 ∧ u = s.writeRegs 0 l
  | .ldI _ | .addI _ | .ldFont _ => ∃ a, u = s.writeI a
  | .ldBcd _ | .storeRegs _ => ∃ l : List Byte, l.length = (storesTo i s).2 ∧
      s.indexBase + l.length ≤ 4096 ∧ u = s.setBytes s.indexBase l
  | .cls => ∃ g, u = s.present g
  | .drw _ _ _ => ∃ g c, u = (s.present g).writeReg .vf (flagByte c)
  | .ldDT _ => ∃ b, u = s.writeDT b
  | .ldST _ => ∃ b, u = s.writeST b
  | .ldKey _ => ∃ m, u = s.writeMode m
  | .call _ => ∃ h : s.sp.toNat < 16,
      u = { s with stack := s.stack.set s.sp.toNat (s.pc + 2#16) h, sp := s.sp + 1#8 }
  | .ret => s.sp ≠ 0#8 ∧ u = { s with sp := s.sp - 1#8 }
  | .jp _ | .jpV0 _ | .seImm _ _ | .sneImm _ _ | .seReg _ _ | .sneReg _ _ | .skp _ | .sknp _ => u = s

/-- The directive a handler that completes may return (40_tick_engine.md R96). -/
def HandlerDirective (i : Instr) (s : State) (d : Directive) : Prop :=
  match i with
  | .ret => ∃ h : s.sp.toNat - 1 < 16, d = .jump s.stack[s.sp.toNat - 1]
  | .jp a | .call a => d = .jump (zextAddr a)
  | .jpV0 a => d = .jump (zextAddr a + zextByte (s.readReg .v0))
  | .seImm _ _ | .sneImm _ _ | .seReg _ _ | .sneReg _ _ | .skp _ | .sknp _ => ∃ c, d = skipIf c
  | _ => d = .next

theorem orRaise_next {α : Type} {r : Except Fault α} {k : α → Result} {t : State} (h : orRaise r k = .next t) :
    ∃ a, r = .ok a ∧ k a = .next t := by
  cases r with
  | ok a => exact ⟨a, rfl, h⟩
  | error f => cases h

/-- Everything an instruction that completes does. -/
theorem exec_next_cases {i : Instr} {s t : State} (h : exec i s = .next t) :
    ∃ u d, t = u.applyDirective d ∧ HandlerWrites i s u ∧ HandlerDirective i s d := by
  have plain {u : State} {d : Directive} (hc : complete d u = .next t) (hw : HandlerWrites i s u)
      (hd : HandlerDirective i s d) : ∃ u d, t = u.applyDirective d ∧ HandlerWrites i s u ∧ HandlerDirective i s d :=
    ⟨u, d, (Host.Outcome.next.inj hc).symm, hw, hd⟩
  cases i with
  | ldImm x kk | addImm x kk | ldReg x y | orReg x y | andReg x y | xorReg x y | ldFromDT x | rnd x kk | ldI nnn
  | addI x | ldFont x | cls | ldDT x | ldST x | ldKey x => exact plain h ⟨_, rfl⟩ rfl
  | addReg x y | subReg x y | subnReg x y | shr x y | shl x y => exact plain h ⟨_, _, rfl⟩ rfl
  | jp nnn | jpV0 nnn => exact plain h rfl rfl
  | seImm x kk | sneImm x kk | seReg x y | sneReg x y => exact plain h rfl ⟨_, rfl⟩
  | skp x | sknp x =>
    obtain ⟨down, -, hc⟩ := orRaise_next h
    exact plain hc rfl ⟨_, rfl⟩
  | call nnn =>
    rw [exec_call] at h
    split_ifs at h with hsp
    exact plain (u := { s with stack := s.stack.set s.sp.toNat (s.pc + 2#16) hsp, sp := s.sp + 1#8 })
      (d := .jump (zextAddr nnn)) h ⟨hsp, rfl⟩ rfl
  | ret =>
    rw [exec_ret] at h
    split_ifs at h with hsp hlt
    exact plain (u := { s with sp := s.sp - 1#8 }) (d := .jump s.stack[s.sp.toNat - 1]) h ⟨hsp, rfl⟩ ⟨hlt, rfl⟩
  | loadRegs x =>
    rw [exec_loadRegs] at h
    split_ifs at h
    exact plain h ⟨_, by simp, rfl⟩ rfl
  | ldBcd x =>
    rw [exec_ldBcd] at h
    split_ifs at h with hi
    exact plain h ⟨bcdDigits (s.readReg x), rfl, hi, rfl⟩ rfl
  | storeRegs x =>
    rw [exec_storeRegs] at h
    split_ifs at h with hi
    refine plain h ⟨_, s.length_readRegs x, ?_, rfl⟩ rfl
    rw [State.length_readRegs]
    exact hi
  | drw x y n =>
    rw [exec_drw] at h
    split_ifs at h
    exact plain h ⟨_, _, rfl⟩ rfl

/-! ## The fields with few writers -/

/-- What `t` keeps of `s` where `i` is not among a field's writers (10_state.md sections 1 to 5). -/
structure KeepsSpecial (i : Instr) (s t : State) : Prop where
  index : (∀ a, i ≠ .ldI a) → (∀ x, i ≠ .addI x) → (∀ x, i ≠ .ldFont x) → t.i = s.i
  stack : (∀ a, i ≠ .call a) → t.stack = s.stack
  sp : (∀ a, i ≠ .call a) → i ≠ .ret → t.sp = s.sp
  dt : (∀ x, i ≠ .ldDT x) → t.dt = s.dt
  st : (∀ x, i ≠ .ldST x) → t.st = s.st
  mode : (∀ x, i ≠ .ldKey x) → t.mode = s.mode
  display : i ≠ .cls → (∀ x y n, i ≠ .drw x y n) → t.fb = s.fb ∧ t.dirty = s.dirty
  keys : t.keys = s.keys
  config : t.config = s.config

theorem handlerWrites_keepsSpecial {i : Instr} {s u : State} (h : HandlerWrites i s u) : KeepsSpecial i s u := by
  cases i with
  | addReg | subReg | subnReg | shr | shl | drw | loadRegs => obtain ⟨_, _, rfl⟩ := h; constructor <;> simp
  | ldBcd | storeRegs => obtain ⟨_, _, _, rfl⟩ := h; constructor <;> simp
  | jp | jpV0 | seImm | sneImm | seReg | sneReg | skp | sknp => obtain rfl : u = s := h; constructor <;> simp
  | _ => obtain ⟨_, rfl⟩ := h; constructor <;> simp

/-- The handler leaves `PC` to the directive. -/
theorem handlerWrites_pc {i : Instr} {s u : State} (h : HandlerWrites i s u) : u.pc = s.pc := by
  cases i with
  | addReg | subReg | subnReg | shr | shl | drw | loadRegs => obtain ⟨_, _, rfl⟩ := h; simp
  | ldBcd | storeRegs => obtain ⟨_, _, _, rfl⟩ := h; simp
  | jp | jpV0 | seImm | sneImm | seReg | sneReg | skp | sknp => obtain rfl : u = s := h; rfl
  | _ => obtain ⟨_, rfl⟩ := h; simp

theorem KeepsSpecial.applyDirective {i : Instr} {s u : State} (h : KeepsSpecial i s u) (d : Directive) :
    KeepsSpecial i s (u.applyDirective d) := by
  obtain ⟨index, stack, sp, dt, st, mode, display, keys, config⟩ := h
  cases d <;> exact ⟨index, stack, sp, dt, st, mode, display, keys, config⟩

theorem exec_keepsSpecial {i : Instr} {s t : State} (h : exec i s = .next t) : KeepsSpecial i s t := by
  obtain ⟨u, d, rfl, hw, -⟩ := exec_next_cases h
  exact (handlerWrites_keepsSpecial hw).applyDirective d

/-- Settles O50: the directive moves `PC` alone, so the frame is that of the handler's writes. -/
theorem specialStateWrittenOnlyAsListed : Obligations.SpecialStateWrittenOnlyAsListed := by
  intro i s t h
  have keeps := exec_keepsSpecial h
  exact ⟨keeps.index, fun hcall => ⟨keeps.stack hcall, keeps.sp hcall⟩, keeps.dt, keeps.st, keeps.mode, keeps.display,
    keeps.keys, keeps.config⟩

/-! ## `PC` -/

/-- Settles O51: every instruction but the four jumps returns `Next`, or it is a skip and returns `Next` or `Skip`. -/
theorem directivesAsListed : Obligations.DirectivesAsListed := by
  intro i s t h hret hjp hcall hjpV0
  obtain ⟨u, d, rfl, hw, hd⟩ := exec_next_cases h
  have hpc : u.pc = s.pc := handlerWrites_pc hw
  cases i with
  | ret => exact absurd rfl hret
  | jp a => exact absurd rfl (hjp a)
  | call a => exact absurd rfl (hcall a)
  | jpV0 a => exact absurd rfl (hjpV0 a)
  | seImm x k | sneImm x k | seReg x y | sneReg x y | skp x | sknp x =>
    obtain ⟨c, rfl⟩ := hd
    rw [State.applyDirective_skipIf_pc, hpc]
    cases c <;> simp
  | _ =>
    obtain rfl : d = .next := hd
    exact .inl (congrArg (· + 2#16) hpc)

/-! ## Memory -/

/-- Settles O49: only LD B and LD [I],Vx store bytes, and what they store is the list of their range. -/
theorem memoryWrittenOnlyAsListed : Obligations.MemoryWrittenOnlyAsListed := by
  intro i s t h a ha
  obtain ⟨u, d, rfl, hw, -⟩ := exec_next_cases h
  rw [State.applyDirective_byteAt]
  cases i with
  | ldBcd | storeRegs =>
    obtain ⟨l, hl, -, rfl⟩ := hw
    exact State.byteAt_setBytes_outside s _ l (hl ▸ ha)
  | addReg | subReg | subnReg | shr | shl | drw | loadRegs => obtain ⟨_, _, rfl⟩ := hw; simp
  | jp | jpV0 | seImm | sneImm | seReg | sneReg | skp | sknp => obtain rfl : u = s := hw; rfl
  | call | ret => obtain ⟨_, rfl⟩ := hw; rfl
  | _ => obtain ⟨_, rfl⟩ := hw; simp

/-! ## Registers -/

/-- Two writes, whichever of them the result and which the flag, leave every other register. -/
theorem State.readReg_writeReg_writeReg_other (s : State) {x y r : Reg} (a b : Byte) (hx : r ≠ x) (hy : r ≠ y) :
    ((s.writeReg x a).writeReg y b).readReg r = s.readReg r := by
  rw [State.readReg_writeReg_other _ b hy, State.readReg_writeReg_other s a hx]

theorem handlerWrites_readReg {i : Instr} {s u : State} (h : HandlerWrites i s u) {r : Reg}
    (hr : writesReg i r = false) : u.readReg r = s.readReg r := by
  cases i with
  | ldImm | addImm | ldReg | orReg | andReg | xorReg | ldFromDT =>
    obtain ⟨b, rfl⟩ := h
    exact State.readReg_writeReg_other s b (ne_of_beq_false hr)
  | rnd =>
    obtain ⟨b, rfl⟩ := h
    rw [State.readReg_writeReg_other _ b (ne_of_beq_false hr), State.drawDone_readReg]
  | addReg =>
    obtain ⟨b, c, rfl⟩ := h
    simp only [writesReg, Bool.or_eq_false_iff, beq_eq_false_iff_ne] at hr
    exact s.readReg_writeReg_writeReg_other _ _ hr.1 hr.2
  | subReg | subnReg | shr | shl =>
    obtain ⟨b, c, rfl⟩ := h
    simp only [writesReg, Bool.or_eq_false_iff, beq_eq_false_iff_ne] at hr
    exact s.readReg_writeReg_writeReg_other _ _ hr.2 hr.1
  | drw =>
    obtain ⟨g, c, rfl⟩ := h
    rw [State.readReg_writeReg_other _ _ (ne_of_beq_false hr), State.present_readReg]
  | loadRegs x =>
    obtain ⟨l, hl, rfl⟩ := h
    simp only [writesReg, decide_eq_false_iff_not] at hr
    rw [State.readReg_writeRegs s 0 l r (by omega), dif_neg (by omega)]
  | ldBcd | storeRegs => obtain ⟨_, _, _, rfl⟩ := h; simp
  | jp | jpV0 | seImm | sneImm | seReg | sneReg | skp | sknp => obtain rfl : u = s := h; rfl
  | call | ret => obtain ⟨_, rfl⟩ := h; rfl
  | _ => obtain ⟨_, rfl⟩ := h; simp

theorem flagByte_eq_zero_or_one (c : Bool) : flagByte c = 0 ∨ flagByte c = 1 := by
  cases c <;> simp [flagByte]

/-- 42_alu.md, Arithmetic laws: a flag writer whose destination is another register leaves a flag in `V[F]`. -/
theorem handlerWrites_flag {i : Instr} {s u : State} (h : HandlerWrites i s u) {x y : Reg} (hx : x ≠ .vf)
    (hi : i = .addReg x y ∨ i = .subReg x y ∨ i = .subnReg x y ∨ i = .shr x y ∨ i = .shl x y ∨ ∃ n, i = .drw x y n) :
    ∃ c, u.readReg .vf = flagByte c := by
  rcases hi with rfl | rfl | rfl | rfl | rfl | ⟨n, rfl⟩
  case inl | inr.inr.inr.inr.inr =>
    obtain ⟨_, c, rfl⟩ := h
    exact ⟨c, State.readReg_writeReg_same _ _ _⟩
  all_goals
    obtain ⟨b, c, rfl⟩ := h
    exact ⟨c, by rw [State.readReg_writeReg_other _ b hx.symm, State.readReg_writeReg_same]⟩

/-- Settles O48: the directive writes no register, so both clauses are those of the handler's writes. -/
theorem registersWrittenOnlyAsListed : Obligations.RegistersWrittenOnlyAsListed := by
  intro i s t h
  obtain ⟨u, d, rfl, hw, -⟩ := exec_next_cases h
  simp only [State.applyDirective_readReg]
  refine ⟨fun r hr => handlerWrites_readReg hw hr, fun x y hx hi => ?_⟩
  obtain ⟨c, hc⟩ := handlerWrites_flag hw hx hi
  rw [hc]
  exact flagByte_eq_zero_or_one c

end Sys2Proof.Machine
end

section
/-! PROOFS. The invariant of the machine (10_state.md R36): kept by every instruction that completes, by every step and
by every host operation. -/

namespace Sys2Proof.Machine

/-! ## What a step that completes has done -/

/-- A Running tick that completes has run an instruction, or met an unmatched word with STRICT false. -/
theorem step_running_next_cases {s t : State} (hm : s.mode = .running) (h : step s = .next t) :
    (∃ i, decodeWord s.opcodeAtPc = .ok i ∧ exec i s.beginRunning = .next t) ∨
    ((∃ e, decodeWord s.opcodeAtPc = .error e) ∧ t = { s.beginRunning with pc := s.pc + 2#16 }) := by
  have hp := fetchable_of_step_next hm h
  cases hd : decodeWord s.opcodeAtPc with
  | ok i => exact .inl ⟨i, rfl, (step_instr hm hp hd).symm.trans h⟩
  | error e =>
    rw [step_unmatched hm hp hd, execUnmatched_eq] at h
    split at h <;> cases h
    exact .inr ⟨⟨e, rfl⟩, rfl⟩

/-- A key-wait tick completes, with or without a key. -/
theorem step_awaiting_next_cases {s t : State} {r : Reg} (hm : s.mode = .awaitingKey r) (h : step s = .next t) :
    t = s.resetDirty ∨ ∃ k : Nibble, t = (s.resetDirty.writeReg r (k.setWidth 8)).writeMode .running := by
  rw [step_awaiting hm, awaitingTick] at h
  split at h <;> cases h
  · exact .inr ⟨_, rfl⟩
  · exact .inl rfl

/-! ## An instruction keeps each part of the invariant -/

section
variable {i : Instr} {s u : State} (h : HandlerWrites i s u)
include h

theorem handlerWrites_sp_le (hsp : s.sp.toNat ≤ 16) : u.sp.toNat ≤ 16 := by
  cases i with
  | call =>
    obtain ⟨hlt, rfl⟩ := h
    change (s.sp + 1#8).toNat ≤ 16
    bv_omega
  | ret =>
    obtain ⟨hne, rfl⟩ := h
    change (s.sp - 1#8).toNat ≤ 16
    bv_omega
  | _ => rwa [(handlerWrites_keepsSpecial h).sp nofun nofun]

theorem handlerWrites_stack_le (hpc : s.pc.toNat + 1 < 4096) (hstack : ∀ k : Fin 16, s.stack[k].toNat ≤ 0x1000)
    (k : Fin 16) : u.stack[k].toNat ≤ 0x1000 := by
  cases i with
  | call =>
    obtain ⟨hlt, rfl⟩ := h
    simp only [Fin.getElem_fin, Vector.getElem_set]
    split
    · bv_omega
    · exact hstack k
  | _ => rw [(handlerWrites_keepsSpecial h).stack nofun]; exact hstack k

theorem handlerWrites_wf (hwf : Memory.wf s.config.font s.mem = true) : Memory.wf u.config.font u.mem = true := by
  rw [(handlerWrites_keepsSpecial h).config]
  cases i with
  | ldBcd | storeRegs => obtain ⟨l, -, hl, rfl⟩ := h; exact State.wf_setBytes l hwf hl
  | addReg | subReg | subnReg | shr | shl | drw | loadRegs => obtain ⟨_, _, rfl⟩ := h; simpa
  | jp | jpV0 | seImm | sneImm | seReg | sneReg | skp | sknp => obtain rfl : u = s := h; exact hwf
  | call | ret => obtain ⟨_, rfl⟩ := h; exact hwf
  | _ => obtain ⟨_, rfl⟩ := h; simpa

end

theorem zextByte_toNat (a : Byte) : (zextByte a).toNat = a.toNat :=
  BitVec.toNat_setWidth_of_le (by decide)

/-- 41_control_flow.md R117: the sum of an address and a byte does not reach 2^16, so it is not reduced. -/
theorem jumpTarget_toNat (a : Addr12) (b : Byte) : (zextAddr a + zextByte b).toNat = a.toNat + b.toNat := by
  rw [BitVec.toNat_add, zextAddr_toNat, zextByte_toNat]
  omega

theorem handlerDirective_pc_le {i : Instr} {s u : State} {d : Directive} (h : HandlerDirective i s d)
    (hu : u.pc = s.pc) (hpc : s.pc.toNat + 1 < 4096) (hstack : ∀ k : Fin 16, s.stack[k].toNat ≤ 0x1000) :
    (u.applyDirective d).pc.toNat ≤ 0x10FE := by
  cases i with
  | ret =>
    obtain ⟨hlt, rfl⟩ := h
    exact (hstack ⟨_, hlt⟩).trans (by decide)
  | jp a | call a =>
    obtain rfl : d = .jump (zextAddr a) := h
    rw [State.applyDirective_jump_pc, zextAddr_toNat]
    omega
  | jpV0 a =>
    obtain rfl : d = .jump (zextAddr a + zextByte (s.readReg .v0)) := h
    rw [State.applyDirective_jump_pc, jumpTarget_toNat]
    omega
  | seImm | sneImm | seReg | sneReg | skp | sknp =>
    obtain ⟨c, rfl⟩ := h
    rw [State.applyDirective_skipIf_pc, hu]
    split <;> bv_omega
  | _ =>
    obtain rfl : d = .next := h
    rw [State.applyDirective_next_pc, hu]
    bv_omega

theorem exec_keeps_inv {i : Instr} {s t : State} (hinv : s.Inv) (hpc : s.pc.toNat + 1 < 4096)
    (h : exec i s = .next t) : t.Inv := by
  obtain ⟨hsp, -, hstack, hwf⟩ := hinv
  obtain ⟨u, d, rfl, hw, hd⟩ := exec_next_cases h
  refine ⟨?_, handlerDirective_pc_le hd (handlerWrites_pc hw) hpc hstack, fun k => ?_, ?_⟩
  · rw [State.applyDirective_sp]
    exact handlerWrites_sp_le hw hsp
  · rw [State.applyDirective_stack]
    exact handlerWrites_stack_le hw hpc hstack k
  · rw [State.applyDirective_config, State.applyDirective_mem]
    exact handlerWrites_wf hw hwf

/-! ## The statements -/

theorem construct_inv (c : Config) : (State.construct c).Inv :=
  have hsp : (0 : Byte).toNat ≤ 16 := by decide
  have hpc : (0x200 : Word).toNat ≤ 0x10FE := by decide
  ⟨hsp, hpc, fun k => by rw [State.construct_stack]; decide, rfl⟩

/-- Settles O19: `SP` and `PC` are constants, every slot is 0 and memory lists nothing. -/
theorem resetKeepsTheInvariants : Obligations.ResetKeepsTheInvariants :=
  construct_inv Config.default

theorem step_keeps_inv {s t : State} (hinv : s.Inv) (h : step s = .next t) : t.Inv := by
  cases hm : s.mode with
  | awaitingKey r => obtain rfl | ⟨k, rfl⟩ := step_awaiting_next_cases hm h <;> exact hinv
  | running =>
    have hpc := fetchable_of_step_next hm h
    obtain ⟨i, -, he⟩ | ⟨-, rfl⟩ := step_running_next_cases hm h
    · exact exec_keeps_inv (s := s.beginRunning) hinv hpc he
    · refine ⟨hinv.1, ?_, hinv.2.2⟩
      change (s.pc + 2#16).toNat ≤ 0x10FE
      bv_omega

/-- Settles O20: a completing tick is a key-wait tick, which keeps every part of the invariant, an instruction, or an
unmatched word, which moves `PC` by 2 from a fetchable one. -/
theorem stepKeepsTheInvariants : Obligations.StepKeepsTheInvariants :=
  fun _ _ => step_keeps_inv

/-! ## Host operations -/

theorem step_keeps_config {s t : State} (h : step s = .next t) : t.config = s.config := by
  cases hm : s.mode with
  | awaitingKey r => obtain rfl | ⟨k, rfl⟩ := step_awaiting_next_cases hm h <;> rfl
  | running =>
    obtain ⟨i, -, he⟩ | ⟨-, rfl⟩ := step_running_next_cases hm h
    · exact (exec_keepsSpecial he).config
    · rfl

theorem load_keeps_inv {s : State} (hinv : s.Inv) (bytes : List Byte) : (s.load bytes).Inv := by
  obtain ⟨hsp, hpc, hstack, hwf⟩ := hinv
  have hlen : 0x200 + (bytes.take 3584).length ≤ 4096 := by
    rw [List.length_take]
    omega
  refine ⟨by rwa [State.load_sp], by rwa [State.load_pc], by rwa [State.load_stack], ?_⟩
  rw [State.load_config]
  exact State.wf_setBytes _ hwf hlen

theorem setKeyLevel_keeps {s : State} (hinv : s.Inv) (i : Int) (level : Bool) :
    (s.setKeyLevel i level).Inv ∧ (s.setKeyLevel i level).config = s.config := by
  rw [State.setKeyLevel_eq_with_keys]
  exact ⟨hinv, rfl⟩

/-- The state the host finds after a tick: the step's, or the one the raising instruction started from. -/
theorem tick_state_keeps {s : State} {rng : Option Byte} {r : TickReport} (hinv : s.Inv) (h : tick rng s = .ok r) :
    r.state.Inv ∧ r.state.config = s.config := by
  obtain ⟨t, hs, rfl⟩ | ⟨f, -, rfl⟩ := tick_cases h
  · have hinv' : t.Inv := step_keeps_inv (s := s.withRng [rng]) hinv hs
    have hconfig : t.config = s.config := step_keeps_config (s := s.withRng [rng]) hs
    exact ⟨hinv', hconfig⟩
  · exact ⟨hinv, rfl⟩

theorem hostOp_keeps {s : State} (hinv : s.Inv) (op : HostOp) : (op.apply s).Inv ∧ (op.apply s).config = s.config := by
  cases op with
  | construct => exact ⟨construct_inv s.config, rfl⟩
  | load bytes => exact ⟨load_keeps_inv hinv bytes, s.load_config bytes⟩
  | setKey i | unsetKey i => exact setKeyLevel_keeps hinv i _
  | tick rng =>
    simp only [HostOp.apply]
    split
    · next r h => exact tick_state_keeps hinv h
    · exact ⟨hinv, rfl⟩

/-- Settles O21: each operation keeps the invariant and the parameters, so a sequence of them does. -/
theorem hostOperationsKeepTheInvariants : Obligations.HostOperationsKeepTheInvariants := by
  intro s ops hinv
  induction ops generalizing s with
  | nil => exact ⟨hinv, rfl⟩
  | cons op ops ih =>
    obtain ⟨hinv', hconfig⟩ := hostOp_keeps hinv op
    obtain ⟨hinv'', hconfig'⟩ := ih (op.apply s) hinv'
    exact ⟨hinv'', hconfig'.trans hconfig⟩

end Sys2Proof.Machine
end

section
/-! PROOFS. The state an instruction does not read (44_display.md R173, 10_state.md R27 to R31, 42_alu.md R141): with
any other value in it, the instruction does the same to everything else. -/

namespace Sys2Proof.Machine

/-! ## The hidden fields changed, each by a function of its own -/

/-- A change of the fields that few instructions read or write; the identity where nothing is said. -/
structure HiddenMap where
  fb : Framebuffer → Framebuffer := id
  st : Byte → Byte := id
  dirty : Bool → Bool := id
  mode : Mode → Mode := id
  keys : Vector Bool 16 → Vector Bool 16 := id
  rngIn : List (Option Byte) → List (Option Byte) := id

def State.mapHidden (s : State) (m : HiddenMap) : State :=
  { s with fb := m.fb s.fb, st := m.st s.st, dirty := m.dirty s.dirty, mode := m.mode s.mode, keys := m.keys s.keys,
           rngIn := m.rngIn s.rngIn }

/-- The change leaves alone whatever hidden field the instruction reads or writes. -/
structure HiddenMap.Spares (m : HiddenMap) (i : Instr) : Prop where
  display : m.fb = id ∧ m.dirty = id ∨ i ≠ .cls ∧ ∀ x y n, i ≠ .drw x y n
  sound : m.st = id ∨ ∀ x, i ≠ .ldST x
  mode : m.mode = id ∨ ∀ x, i ≠ .ldKey x
  keys : m.keys = id ∨ (∀ x, i ≠ .skp x) ∧ ∀ x, i ≠ .sknp x
  random : m.rngIn = id ∨ ∀ x kk, i ≠ .rnd x kk

theorem mapNext_orRaise {α : Type} (f : State → State) (r : Except Fault α) (k : α → Result) :
    mapNext f (orRaise r k) = orRaise r fun a => mapNext f (k a) := by
  cases r <;> rfl

theorem mapNext_ite {c : Prop} [Decidable c] (f : State → State) (a b : Result) :
    mapNext f (if c then a else b) = if c then mapNext f a else mapNext f b := by
  split <;> rfl

theorem mapNext_dite {c : Prop} [Decidable c] (f : State → State) (a : c → Result) (b : Result) :
    mapNext f (if h : c then a h else b) = if h : c then mapNext f (a h) else mapNext f b := by
  split <;> rfl

theorem complete_mapHidden (s : State) (m : HiddenMap) (d : Directive) :
    complete d (s.mapHidden m) = mapNext (State.mapHidden · m) (complete d s) := by
  cases d <;> rfl

theorem State.drawDone_mapHidden (s : State) {m : HiddenMap} (h : m.rngIn = id) :
    (s.mapHidden m).drawDone = s.drawDone.mapHidden m := by
  unfold State.drawDone
  cases hr : s.rngIn <;> simp [State.mapHidden, hr, h]

theorem State.setBytes_mapHidden (s : State) (m : HiddenMap) (a : Nat) (l : List Byte) :
    (s.mapHidden m).setBytes a l = (s.setBytes a l).mapHidden m := by
  rw [State.setBytes_eq, State.setBytes_eq s, State.setBytes_mem_congr (s := s.mapHidden m) (t := s) a l rfl rfl]
  rfl

theorem State.writeRegs_mapHidden (s : State) (m : HiddenMap) (j : Nat) (l : List Byte) :
    (s.mapHidden m).writeRegs j l = (s.writeRegs j l).mapHidden m := by
  rw [State.writeRegs_eq, State.writeRegs_eq s, State.writeRegs_v_congr (s := s.mapHidden m) (t := s) j l rfl]
  rfl

/-- An instruction commutes with every change of hidden fields that spares it. -/
theorem exec_mapHidden {i : Instr} {m : HiddenMap} (h : m.Spares i) (s : State) :
    exec i (s.mapHidden m) = mapNext (State.mapHidden · m) (exec i s) := by
  obtain ⟨fb, st, dirty, mode, keys, rngIn⟩ := m
  cases i with
  | cls =>
    obtain ⟨rfl, rfl⟩ := h.display.resolve_right fun hne => hne.1 rfl
    rfl
  | drw x y n =>
    obtain ⟨rfl, rfl⟩ := h.display.resolve_right fun hne => hne.2 x y n rfl
    rw [exec_drw, exec_drw, mapNext_ite]
    rfl
  | ldST x =>
    obtain rfl := h.sound.resolve_right fun hne => hne x rfl
    rfl
  | ldKey x =>
    obtain rfl := h.mode.resolve_right fun hne => hne x rfl
    rfl
  | skp x =>
    obtain rfl := h.keys.resolve_right fun hne => hne.1 x rfl
    simp only [exec, execSkp, mapNext_orRaise, ← complete_mapHidden]
    rfl
  | sknp x =>
    obtain rfl := h.keys.resolve_right fun hne => hne.2 x rfl
    simp only [exec, execSknp, mapNext_orRaise, ← complete_mapHidden]
    rfl
  | rnd x kk =>
    have hrng := h.random.resolve_right fun hne => hne x kk rfl
    simp only [exec, execRnd, State.drawDone_mapHidden s hrng]
    obtain rfl := hrng
    rfl
  | ret =>
    simp only [exec_ret, mapNext_ite, mapNext_dite]
    rfl
  | call nnn =>
    simp only [exec_call, mapNext_dite]
    rfl
  | ldBcd x =>
    rw [exec_ldBcd, exec_ldBcd, mapNext_ite, State.setBytes_mapHidden]
    rfl
  | storeRegs x =>
    rw [exec_storeRegs, exec_storeRegs, mapNext_ite, State.setBytes_mapHidden]
    rfl
  | loadRegs x =>
    rw [exec_loadRegs, exec_loadRegs, mapNext_ite, State.writeRegs_mapHidden]
    rfl
  | seImm | sneImm | seReg | sneReg => exact complete_mapHidden s _ _
  | _ => rfl

/-! ## The statements -/

/-- Settles O52: each clause changes one hidden field, and its hypotheses are that the instruction is spared. -/
theorem hiddenStateIsNotRead : Obligations.HiddenStateIsNotRead :=
  ⟨fun _ s fb hcls hdrw => exec_mapHidden (m := { fb := fun _ => fb })
      ⟨.inr ⟨hcls, hdrw⟩, .inl rfl, .inl rfl, .inl rfl, .inl rfl⟩ s,
    fun _ s st hst => exec_mapHidden (m := { st := fun _ => st })
      ⟨.inl ⟨rfl, rfl⟩, .inr hst, .inl rfl, .inl rfl, .inl rfl⟩ s,
    fun _ s d hcls hdrw => exec_mapHidden (m := { dirty := fun _ => d })
      ⟨.inr ⟨hcls, hdrw⟩, .inl rfl, .inl rfl, .inl rfl, .inl rfl⟩ s,
    fun _ s m hkey => exec_mapHidden (m := { mode := fun _ => m })
      ⟨.inl ⟨rfl, rfl⟩, .inl rfl, .inr hkey, .inl rfl, .inl rfl⟩ s⟩

/-- Settles O53: another set of keys spares every instruction but the two key skips. -/
theorem onlyKeySkipsReadTheKeypad : Obligations.OnlyKeySkipsReadTheKeypad := fun _ s keys hskp hsknp =>
  exec_mapHidden (m := { keys := fun _ => keys })
    ⟨.inl ⟨rfl, rfl⟩, .inl rfl, .inl rfl, .inr ⟨hskp, hsknp⟩, .inl rfl⟩ s

/-- The answers supplied to the random source matter to no instruction but RND. -/
theorem exec_withRng {i : Instr} (h : ∀ x kk, i ≠ .rnd x kk) (s : State) (l : List (Option Byte)) :
    exec i (s.withRng l) = mapNext (State.withRng · l) (exec i s) :=
  exec_mapHidden (m := { rngIn := fun _ => l }) ⟨.inl ⟨rfl, rfl⟩, .inl rfl, .inl rfl, .inl rfl, .inr h⟩ s

theorem step_withRng {s : State} (h : s.mode = .running → ∀ x kk, decodeWord s.opcodeAtPc ≠ .ok (.rnd x kk))
    (l : List (Option Byte)) : step (s.withRng l) = mapNext (State.withRng · l) (step s) := by
  obtain ⟨t, hm, hs⟩ | ⟨hm, hp, hs⟩ | ⟨hm, hp, e, hd, hs⟩ | ⟨hm, hp, i, hd, hs⟩ := step_cases s
  · rw [hs, step_awaiting (s := s.withRng l) hm, awaitingTick, awaitingTick]
    change (match s.resetDirty.lowestKey with | some k => _ | none => _) = _
    cases s.resetDirty.lowestKey <;> rfl
  · rw [hs, step_running_unfetchable (s := s.withRng l) hm hp]
    rfl
  · rw [hs, step_unmatched (s := s.withRng l) hm hp hd, execUnmatched_eq, execUnmatched_eq, mapNext_ite]
    rfl
  · rw [hs, step_instr (s := s.withRng l) hm hp hd]
    exact exec_withRng (fun x kk hi => h hm x kk (hi ▸ hd)) s.beginRunning l

/-- Settles O33: a tick that runs no RND steps as the state does without an answer, and its report does not show the
answers supplied. -/
theorem onlyRndReadsTheRandomSource : Obligations.OnlyRndReadsTheRandomSource := by
  intro s rng rng' h
  unfold tick
  rw [step_withRng h, step_withRng h]
  cases step s <;> rfl

end Sys2Proof.Machine
end

section
/-! PROOFS. The fatal conditions: which tick raises which one, what it leaves, and that it raises again
(60_exceptions.md R190 to R201, 40_tick_engine.md R94, R98). -/

namespace Sys2Proof.Machine

/-! ## The fetch -/

/-- 20_memory.md R56: big-endian. -/
theorem composeOpcode_toNat (hi lo : Byte) : (composeOpcode hi lo).toNat = hi.toNat * 256 + lo.toNat := by
  rw [composeOpcode, BitVec.toNat_append, ← Nat.shiftLeft_add_eq_or_of_lt lo.isLt, Nat.shiftLeft_eq]

theorem step_from_unfetchable {s : State} (hp : 0xFFF ≤ s.pc.toNat) (hm : s.mode = .running) :
    step s = .fault .memoryAccessError :=
  step_running_unfetchable hm (by omega)

/-- Settles O10: the bound is the one of the two-byte read at `PC`, and the two bytes compose as hi * 256 + lo. -/
theorem fetchIsBigEndianAndChecked : Obligations.FetchIsBigEndianAndChecked := by
  intro s
  rw [State.fetch_eq]
  refine ⟨fun hp => ⟨if_neg (by omega), step_from_unfetchable hp⟩, fun hp => ?_⟩
  exact ⟨_, if_pos (by omega), composeOpcode_toNat _ _⟩

/-! ## A result and the condition it raises -/

/-- The result raises exactly the condition `o`, and completes where that is none. -/
def Raises (r : Result) (o : Option Fault) : Prop :=
  match o with
  | some f => r = .fault f
  | none => ∃ t, r = .next t

theorem raises_ite {c d : Prop} [Decidable c] [Decidable d] (hd : d ↔ ¬ c) (t : State) (f : Fault) :
    Raises (if c then .next t else .fault f) (if d then some f else none) := by
  by_cases hc : c
  · rw [if_pos hc, if_neg (by tauto)]
    exact ⟨t, rfl⟩
  · rw [if_neg hc, if_pos (hd.2 hc)]
    rfl

theorem Raises.fault_iff {r : Result} {o : Option Fault} (h : Raises r o) (f : Fault) : r = .fault f ↔ o = some f := by
  cases o with
  | none => obtain ⟨t, rfl⟩ := h; simp
  | some g => obtain rfl : r = .fault g := h; simp

theorem Raises.next_iff {r : Result} {o : Option Fault} (h : Raises r o) : (∃ t, r = .next t) ↔ o = none := by
  cases o with
  | none => exact ⟨fun _ => rfl, fun _ => h⟩
  | some g => obtain rfl : r = .fault g := h; simp

theorem Raises.ne_refused {r : Result} {o : Option Fault} (h : Raises r o) (e : Refusal) : r ≠ .refused e := by
  cases o with
  | none => obtain ⟨t, rfl⟩ := h; simp
  | some g => obtain rfl : r = .fault g := h; simp

/-! ## The condition of an instruction, in every state -/

/-- As `causeOf`, with the states no run reaches, those with `SP` above 16, included (log 16). -/
def faultOf (i : Instr) (s : State) : Option Fault :=
  match i with
  | .call _ => if 16 ≤ s.sp.toNat then some .stackOverflow else none
  | .ret => if s.sp = 0#8 then some .stackUnderflow else if 16 < s.sp.toNat then some .stackOverflow else none
  | i => causeOf i s

theorem faultOf_eq_causeOf {i : Instr} {s : State} (hsp : s.sp.toNat ≤ 16) : faultOf i s = causeOf i s := by
  cases i with
  | call a =>
    have hiff : 16 ≤ s.sp.toNat ↔ s.sp = 16#8 := by bv_omega
    simp only [faultOf, causeOf, hiff]
  | ret => simp only [faultOf, causeOf, if_neg (Nat.not_lt.2 hsp)]
  | _ => rfl

/-- SKP and SKNP raise when the key number is above 15 under policy `fault` (45_keypad_timers.md R186). -/
theorem raises_keyLevel (s : State) (a : Byte) (d : Bool → Directive) :
    Raises (orRaise (s.keyLevel a) fun down => complete (d down) s)
      (if 15 < a.toNat ∧ s.config.keyIndexPolicy = .fault then some .keyIndexError else none) := by
  obtain ⟨ha, he⟩ | ⟨ha, hp, he⟩ | ⟨ha, hp, he⟩ | ⟨ha, hp, he⟩ := s.keyLevel_cases a
  · rw [he, if_neg (by omega)]
    exact ⟨_, rfl⟩
  · rw [he, if_pos ⟨ha, hp⟩]
    rfl
  all_goals
    rw [he, if_neg (by simp [hp])]
    exact ⟨_, rfl⟩

theorem exec_raises (i : Instr) (s : State) : Raises (exec i s) (faultOf i s) := by
  cases i with
  | call a =>
    rw [exec_call, faultOf]
    by_cases h : s.sp.toNat < 16
    · rw [dif_pos h, if_neg (by omega)]
      exact ⟨_, rfl⟩
    · rw [dif_neg h, if_pos (by omega)]
      rfl
  | ret =>
    rw [exec_ret, faultOf]
    by_cases h0 : s.sp = 0#8
    · rw [if_pos h0, if_pos h0]
      rfl
    · rw [if_neg h0, if_neg h0]
      by_cases h : s.sp.toNat - 1 < 16
      · rw [dif_pos h, if_neg (by omega)]
        exact ⟨_, rfl⟩
      · rw [dif_neg h, if_pos (by omega)]
        rfl
  | drw x y n => exact (exec_drw x y n s) ▸ raises_ite (by omega) _ _
  | ldBcd x => exact (exec_ldBcd x s) ▸ raises_ite (by omega) _ _
  | storeRegs x => exact (exec_storeRegs x s) ▸ raises_ite (by omega) _ _
  | loadRegs x => exact (exec_loadRegs x s) ▸ raises_ite (by omega) _ _
  | skp x => exact raises_keyLevel s _ skipIf
  | sknp x => exact raises_keyLevel s _ fun down => skipIf !down
  | _ => exact ⟨_, rfl⟩

/-- The dirty reset and the timer decrement do not enter the condition. -/
theorem exec_beginRunning_raises (i : Instr) (s : State) : Raises (exec i s.beginRunning) (faultOf i s) := by
  have hb : faultOf i s.beginRunning = faultOf i s := by cases i <;> rfl
  exact hb ▸ exec_raises i s.beginRunning

/-! ## The condition of a tick -/

/-- As `State.cause`, in every state. -/
def State.faultOf (s : State) : Option Fault :=
  match s.mode with
  | .awaitingKey _ => none
  | .running =>
    if 0xFFF ≤ s.pc.toNat then some .memoryAccessError
    else
      match decodeWord s.opcodeAtPc with
      | .ok i => Machine.faultOf i s
      | .error _ => if s.config.strict then some .unknownOpcode else none

theorem State.faultOf_eq_cause {s : State} (hsp : s.sp.toNat ≤ 16) : s.faultOf = s.cause := by
  unfold State.faultOf State.cause
  cases s.mode with
  | awaitingKey t => rfl
  | running =>
    cases decodeWord s.opcodeAtPc with
    | ok i => simp only [faultOf_eq_causeOf hsp]
    | error e => rfl

theorem awaitingTick_next (t : Reg) (s : State) : ∃ u, awaitingTick t s = .next u := by
  unfold awaitingTick
  split <;> exact ⟨_, rfl⟩

theorem execUnmatched_raises (s : State) :
    Raises (execUnmatched s) (if s.config.strict then some .unknownOpcode else none) := by
  rw [execUnmatched_eq]
  cases s.config.strict with
  | false => exact ⟨_, rfl⟩
  | true => rfl

theorem step_raises (s : State) : Raises (step s) s.faultOf := by
  unfold State.faultOf
  obtain ⟨t, hm, hs⟩ | ⟨hm, hp, hs⟩ | ⟨hm, hp, e, hd, hs⟩ | ⟨hm, hp, i, hd, hs⟩ := step_cases s <;>
    simp only [hs, hm]
  · exact awaitingTick_next t _
  · rw [if_pos (by omega)]
    rfl
  · rw [if_neg (by omega), hd]
    exact execUnmatched_raises s.beginRunning
  · rw [if_neg (by omega), hd]
    exact exec_beginRunning_raises i s

/-- Settles O11: the condition of a tick in every state is the listed one where `SP` is at most 16, and a result that
raises exactly a condition is that fault, or a next state where it is none. -/
theorem tickRaisesExactlyTheListedConditions : Obligations.TickRaisesExactlyTheListedConditions := by
  intro s hinv
  have h := State.faultOf_eq_cause hinv.1 ▸ step_raises s
  exact ⟨h.fault_iff, h.next_iff, h.ne_refused⟩

/-! ## The report of a tick that raised -/

theorem tick_fault_cases {s : State} {rng : Option Byte} {r : TickReport} {f : Fault} (h : tick rng s = .ok r)
    (hf : r.fault = some f) : step (s.withRng [rng]) = .fault f ∧ r = report s.beginRunning (some f) := by
  obtain ⟨t, -, rfl⟩ | ⟨g, hs, rfl⟩ := tick_cases h
  · cases hf
  · cases hf
    exact ⟨hs, rfl⟩

/-- Settles O12: the report is that of the state the tick began its instruction in. -/
theorem fatalConditionIsPrecise : Obligations.FatalConditionIsPrecise := by
  intro s rng r f h hf
  obtain ⟨hs, rfl⟩ := tick_fault_cases h hf
  have hm : (s.withRng [rng]).mode = .running := running_of_step_fault hs
  exact ⟨hm, rfl, timerDown_toNat s.dt, timerDown_toNat s.st, rfl, State.beeping_iff _⟩

/-- The condition of a tick does not depend on the dirty flag, the timers, the keys or the random source. -/
theorem faultOf_retry (s : State) (keys : Vector Bool 16) (l l' : List (Option Byte)) :
    State.faultOf (({ s.beginRunning with keys := keys } : State).withRng l) = (s.withRng l').faultOf := by
  have hi (i : Instr) : faultOf i (({ s.beginRunning with keys := keys } : State).withRng l) =
      faultOf i (s.withRng l') := by
    cases i <;> rfl
  simp only [State.faultOf, hi]
  rfl

theorem tick_retry {s : State} {rng : Option Byte} {f : Fault} (h : step (s.withRng [rng]) = .fault f)
    (keys : Vector Bool 16) (rng' : Option Byte) :
    tick rng' { s.beginRunning with keys := keys } =
      .ok (report ({ s.beginRunning with keys := keys } : State).beginRunning (some f)) := by
  have hf : (s.withRng [rng]).faultOf = some f := ((step_raises _).fault_iff f).1 h
  rw [← faultOf_retry s keys [rng'] [rng]] at hf
  exact tick_of_fault (((step_raises _).fault_iff f).2 hf)

/-- The next fetch reads what `load` put at `PC`. -/
theorem opcodeAtPc_load {s : State} {bytes : List Byte} {hi lo : Byte} (hlow : 0x200 ≤ s.pc.toNat)
    (hp : s.pc.toNat + 1 < 4096) (hhi : bytes[s.pc.toNat - 0x200]? = some hi)
    (hlo : bytes[s.pc.toNat - 0x200 + 1]? = some lo) : (s.load bytes).opcodeAtPc = composeOpcode hi lo := by
  obtain ⟨h₁, rfl⟩ := List.getElem?_eq_some_iff.1 hhi
  obtain ⟨h₂, rfl⟩ := List.getElem?_eq_some_iff.1 hlo
  have e₁ : 0x200 + (s.pc.toNat - 0x200) = s.pc.toNat := by omega
  have e₂ : 0x200 + (s.pc.toNat - 0x200 + 1) = s.pc.toNat + 1 := by omega
  have b₁ := s.byteAt_load_inside bytes h₁ (by omega)
  have b₂ := s.byteAt_load_inside bytes h₂ (by omega)
  rw [e₁] at b₁
  rw [e₂] at b₂
  rw [State.opcodeAtPc, State.load_pc, b₁, b₂]

/-- Settles O13: the condition depends on nothing that the raising tick or the host's keys changed; and `load` changes
memory alone, so the next step finds the new instruction in the mode and at the `PC` of the one that raised. -/
theorem fatalConditionRecurs : Obligations.FatalConditionRecurs := by
  intro s rng rng' r f keys h hf
  obtain ⟨hs, rfl⟩ := tick_fault_cases h hf
  refine ⟨⟨_, tick_retry hs keys rng', rfl, rfl, rfl, rfl, rfl⟩, fun bytes hi lo i hlow hp hhi hlo hd => ?_⟩
  have hm : s.mode = .running := running_of_step_fault (s := s.withRng [rng]) hs
  have hm' : (s.beginRunning.load bytes).mode = .running := (State.load_mode _ _).trans hm
  have hp' : (s.beginRunning.load bytes).pc.toNat + 1 < 4096 := by rwa [State.load_pc]
  rw [← opcodeAtPc_load (s := s.beginRunning) hlow hp hhi hlo] at hd
  refine ⟨⟨_, step_instr hm' hp' hd, rfl, ?_, ?_⟩, ?_⟩
  · rw [State.beginRunning_dt, timerDown_toNat, State.load_dt]
  · rw [State.beginRunning_st, timerDown_toNat, State.load_st]
  · rintro nnn rfl
    exact ⟨_, tick_of_exec_next hm' hp' hd rfl, rfl, zextAddr_toNat nnn⟩

end Sys2Proof.Machine
end

section
/-! PROOFS. The tick engine: the decoded instruction, framebuffer_changed, the timers and the beeper, the key wait
(40_tick_engine.md R90 to R102, 45_keypad_timers.md R185, 70_reset_and_hazards.md R236). -/

namespace Sys2Proof.Machine

/-- Settles O7: the state the instruction runs on is the one after the dirty reset and the timer decrement. -/
theorem stepRunsDecodedInstruction : Obligations.StepRunsDecodedInstruction := fun s _ hm hp hpair _ =>
  ⟨s.beginRunning, step_instr hm hp ((decode_pair_ok _ _ _).1 hpair), rfl, timerDown_toNat s.dt, timerDown_toNat s.st⟩

/-! ## framebuffer_changed -/

theorem exec_dirty_iff {i : Instr} {s t : State} (hs : s.dirty = false) (h : exec i s = .next t) :
    t.dirty = true ↔ i = .cls ∨ ∃ x y n, i = .drw x y n := by
  by_cases hi : i = .cls ∨ ∃ x y n, i = .drw x y n
  · obtain ⟨u, d, rfl, hw, -⟩ := exec_next_cases h
    rw [State.applyDirective_dirty]
    refine iff_of_true ?_ hi
    obtain rfl | ⟨x, y, n, rfl⟩ := hi
    · obtain ⟨g, rfl⟩ := hw
      rfl
    · obtain ⟨g, c, rfl⟩ := hw
      rfl
  · obtain ⟨-, hd⟩ := (exec_keepsSpecial h).display (fun hc => hi (.inl hc)) fun x y n hc => hi (.inr ⟨x, y, n, hc⟩)
    simp [hd, hs, hi]

theorem step_dirty_iff {s t : State} (h : step s = .next t) :
    t.dirty = true ↔ s.mode = .running ∧
      (decodeWord s.opcodeAtPc = .ok .cls ∨ ∃ x y n, decodeWord s.opcodeAtPc = .ok (.drw x y n)) := by
  cases hm : s.mode with
  | awaitingKey r => obtain rfl | ⟨k, rfl⟩ := step_awaiting_next_cases hm h <;> simp
  | running =>
    obtain ⟨i, hd, he⟩ | ⟨⟨e, hd⟩, rfl⟩ := step_running_next_cases hm h
    · simp [exec_dirty_iff (s := s.beginRunning) rfl he, hd]
    · simp [hd]

/-- Settles O14: a completing tick reports the `DIRTY` its instruction leaves, one that raised a reset one. -/
theorem framebufferChangedMeansClsOrDrw : Obligations.FramebufferChangedMeansClsOrDrw := by
  intro s rng r h
  obtain ⟨t, hs, rfl⟩ | ⟨f, -, rfl⟩ := tick_cases h
  · have hd := step_dirty_iff hs
    simpa [report] using hd
  · simp [report]

/-! ## The timers -/

/-- 40_tick_engine.md R93: without a write of `ST`, a Running tick takes it one lower, not below 0. -/
theorem step_running_st {s t : State} (hm : s.mode = .running) (hi : ∀ x, decodeWord s.opcodeAtPc ≠ .ok (.ldST x))
    (h : step s = .next t) : t.st.toNat = s.st.toNat - 1 := by
  have hst : t.st = s.beginRunning.st := by
    obtain ⟨i, hd, he⟩ | ⟨-, rfl⟩ := step_running_next_cases hm h
    · exact (exec_keepsSpecial he).st fun x hx => hi x (hx ▸ hd)
    · rfl
  rw [hst, State.beginRunning_st, timerDown_toNat]

theorem step_awaiting_timers {s t : State} {r : Reg} (hm : s.mode = .awaitingKey r) (h : step s = .next t) :
    t.dt = s.dt ∧ t.st = s.st := by
  obtain rfl | ⟨k, rfl⟩ := step_awaiting_next_cases hm h <;> exact ⟨rfl, rfl⟩

/-- Settles O15: one lemma for each timer, and one for the key wait. -/
theorem timersFallByAtMostOne : Obligations.TimersFallByAtMostOne := fun _ _ h =>
  ⟨fun _ hm => step_awaiting_timers hm h, fun hm hi => step_running_dt hm hi h, fun hm hi => step_running_st hm hi h⟩

/-! ## The beeper -/

theorem exec_ldST (x : Reg) (s : State) :
    exec (.ldST x) s = .next ((s.writeST (s.readReg x)).applyDirective .next) := rfl

/-- Settles O46: the report samples `ST` at the end of the tick, where it is what LD ST,Vx wrote, what the decrement
left, or in a key wait what it was. -/
theorem soundTimerDrivesTheBeeper : Obligations.SoundTimerDrivesTheBeeper := by
  refine ⟨fun s x => ⟨_, exec_ldST x s, rfl, rfl⟩, fun s x rng hm hp hd => ?_, fun s rng r h hf => ?_⟩
  · exact ⟨_, tick_of_exec_next hm hp hd (exec_ldST x _), rfl, rfl, State.beeping_iff _, rfl⟩
  · obtain ⟨t, hs, rfl⟩ | ⟨f, -, rfl⟩ := tick_cases h
    · have hbeep : (t.withRng s.rngIn).beeping = true ↔ 0 < t.st.toNat := State.beeping_iff _
      refine ⟨hbeep, fun k hm => ?_, fun hm hi => ?_⟩
      · have hst : t.st = s.st := (step_awaiting_timers (s := s.withRng [rng]) hm hs).2
        exact ⟨hst, hst ▸ hbeep⟩
      · have hst : t.st.toNat = s.st.toNat - 1 := step_running_st (s := s.withRng [rng]) hm hi hs
        exact ⟨hst, hbeep.trans (by omega)⟩
    · cases hf

/-! ## The key wait -/

/-- Settles O17: the first tick resets the dirty flag, and the later ones find it reset. -/
theorem keyWaitWithoutKeyNeverEnds : Obligations.KeyWaitWithoutKeyNeverEnds :=
  fun _ _ n hm hn => run_awaiting_noKey hm hn n

/-- With the dirty flag reset, a wait without a key changes nothing at all. -/
theorem run_awaiting_clean {s : State} {x : Reg} (hm : s.mode = .awaitingKey x) (hn : s.NoKey)
    (hc : s.dirty = false) (n : Nat) : Host.Core.run Sys2Proof.core n s = .next s := by
  cases n with
  | zero => rfl
  | succ n =>
    rw [run_awaiting_noKey hm hn n, State.resetDirty, ← hc]

theorem step_ldKey {s : State} {x : Reg} (hm : s.mode = .running) (hp : s.pc.toNat + 1 < 4096)
    (hd : decodeWord s.opcodeAtPc = .ok (.ldKey x)) :
    step s = .next ((s.beginRunning.writeMode (.awaitingKey x)).applyDirective .next) :=
  step_instr hm hp hd

/-- Settles O16: the first tick starts the wait and leaves the dirty flag reset, so the others change nothing, and the
tick that ends the wait is that of any state in it. -/
theorem keyWaitTimeline : Obligations.KeyWaitTimeline := by
  intro s x n hm hp hd hn
  have hwait := run_awaiting_clean (s := (s.beginRunning.writeMode (.awaitingKey x)).applyDirective .next) rfl hn rfl n
  exact ⟨_, (core_run_of_next n (step_ldKey hm hp hd)).trans hwait, rfl, rfl, rfl, timerDown_toNat s.dt,
    timerDown_toNat s.st, rfl, fun _ _ hk hleast => step_awaiting_leastKey rfl hk hleast⟩

end Sys2Proof.Machine
end

section
/-! PROOFS. JP, JP V0, CALL and RET (41_control_flow.md R110 to R112, R117). -/

namespace Sys2Proof.Machine

/-! ## Jumps -/

theorem exec_jp (nnn : Addr12) (s : State) : exec (.jp nnn) s = .next { s with pc := zextAddr nnn } := rfl

theorem exec_jpV0 (nnn : Addr12) (s : State) :
    exec (.jpV0 nnn) s = .next { s with pc := zextAddr nnn + zextByte (s.readReg .v0) } := rfl

/-- Settles O22: the one write is of `PC`, and 0xFFF is a `PC` at which no two bytes exist. -/
theorem jumpLoadsTheAddress : Obligations.JumpLoadsTheAddress := by
  intro s nnn
  refine ⟨_, exec_jp nnn s, zextAddr_toNat nnn, rfl, ?_⟩
  rintro rfl hm
  have htop : 0xFFF ≤ (zextAddr 0xFFF).toNat := by decide
  exact step_from_unfetchable htop hm

/-- Settles O23: the one write is of `PC`, and the sum of the two numbers does not wrap. -/
theorem jumpWithOffsetAddsV0 : Obligations.JumpWithOffsetAddsV0 := by
  intro s nnn
  have hpc := jumpTarget_toNat nnn (s.readReg .v0)
  refine ⟨_, exec_jpV0 nnn s, hpc, ?_, rfl, step_from_unfetchable⟩
  change (zextAddr nnn + zextByte (s.readReg .v0)).toNat ≤ 0x10FE
  omega

/-! ## The report of a tick whose instruction raises -/

/-- The whole of `State` but `DIRTY` and the timers is as before. -/
theorem tick_of_exec_fault {s : State} {rng : Option Byte} {i : Instr} {f : Fault} (hm : s.mode = .running)
    (hp : s.pc.toNat + 1 < 4096) (hd : decodeWord s.opcodeAtPc = .ok i)
    (he : exec i (s.withRng [rng]).beginRunning = .fault f) :
    ∃ r, tick rng s = .ok r ∧ r.fault = some f ∧ { r.state with dirty := s.dirty, dt := s.dt, st := s.st } = s := by
  rw [← State.opcodeAtPc_withRng s [rng]] at hd
  exact ⟨_, tick_of_fault ((step_instr (s := s.withRng [rng]) hm hp hd).trans he), rfl, rfl⟩

/-! ## CALL and RET -/

theorem exec_call_next {s : State} (h : s.sp.toNat < 16) (nnn : Addr12) :
    exec (.call nnn) s = .next { s with stack := s.stack.set s.sp.toNat (s.pc + 2#16) h, sp := s.sp + 1#8,
                                        pc := zextAddr nnn } := by
  rw [exec_call, dif_pos h]

theorem exec_call_full {s : State} (h : s.sp = 16#8) (nnn : Addr12) : exec (.call nnn) s = .fault .stackOverflow := by
  rw [exec_call, dif_neg (by simp [h])]

theorem exec_ret_next {s : State} (h : 1 ≤ s.sp.toNat ∧ s.sp.toNat ≤ 16) :
    exec .ret s = .next { s with sp := s.sp - 1#8, pc := s.stack[s.sp.toNat - 1] } := by
  have hne : s.sp ≠ 0#8 := by bv_omega
  rw [exec_ret, if_neg hne, dif_pos (by omega)]

theorem exec_ret_empty {s : State} (h : s.sp = 0#8) : exec .ret s = .fault .stackUnderflow := by
  rw [exec_ret, if_pos h]

/-- A RET right after a CALL comes back to the call site plus 2, whatever `PC` the CALL jumped to. -/
theorem exec_ret_after_push {s : State} (h : s.sp.toNat < 16) (ret pc : Word) :
    exec .ret { s with stack := s.stack.set s.sp.toNat ret h, sp := s.sp + 1#8, pc := pc } =
      .next { s with stack := s.stack.set s.sp.toNat ret h, pc := ret } := by
  have hsp : (s.sp + 1#8).toNat = s.sp.toNat + 1 := by bv_omega
  rw [exec_ret_next (by simp only [hsp]; omega)]
  simp [hsp]

/-- Settles O24: the push writes one slot, which the pop reads; a full stack raises, and the report of the tick holds
the state the instruction started from. -/
theorem callPushesReturnAddress : Obligations.CallPushesReturnAddress := by
  refine ⟨fun s nnn h => ?_, fun s nnn rng h => ⟨exec_call_full h nnn, fun hm hp hd => ?_⟩⟩
  · have hsp : (s.sp + 1#8).toNat = s.sp.toNat + 1 := by bv_omega
    refine ⟨_, exec_call_next h nnn, Vector.getElem_set_self h, fun k hk => ?_, hsp, zextAddr_toNat nnn, rfl,
      _, exec_ret_after_push h _ _, rfl, rfl, rfl⟩
    exact Vector.getElem_set_ne h k.isLt (Ne.symm hk)
  · exact tick_of_exec_fault hm hp hd (exec_call_full (s := (s.withRng [rng]).beginRunning) h nnn)

/-- Settles O25: the pop reads a slot, whose bound is part of the invariant, and writes none; an empty stack raises. -/
theorem returnPopsTheStack : Obligations.ReturnPopsTheStack := by
  refine ⟨fun s h => ?_, fun s rng h => ⟨exec_ret_empty h, fun hm hp hd => ?_⟩⟩
  · refine ⟨_, exec_ret_next h, by bv_omega, rfl, rfl, fun hinv => ?_, step_from_unfetchable⟩
    exact hinv.2.2.1 ⟨s.sp.toNat - 1, by omega⟩
  · exact tick_of_exec_fault hm hp hd (exec_ret_empty h)

end Sys2Proof.Machine
end

section
/-! PROOFS. OR, AND, XOR, SUB, SUBN, SHR, SHL and RND (42_alu.md R133 to R141). -/

namespace Sys2Proof.Machine

/-! ## Logic -/

theorem exec_orReg (x y : Reg) (s : State) :
    exec (.orReg x y) s = .next ((s.writeReg x (s.readReg x ||| s.readReg y)).applyDirective .next) := rfl

theorem exec_andReg (x y : Reg) (s : State) :
    exec (.andReg x y) s = .next ((s.writeReg x (s.readReg x &&& s.readReg y)).applyDirective .next) := rfl

theorem exec_xorReg (x y : Reg) (s : State) :
    exec (.xorReg x y) s = .next ((s.writeReg x (s.readReg x ^^^ s.readReg y)).applyDirective .next) := rfl

/-- Settles O28: each instruction is one register write, read back bit by bit. -/
theorem logicalOperations : Obligations.LogicalOperations := by
  intro s x y
  have frame (b : Byte) : s.ChangedOnlyRegs ((s.writeReg x b).applyDirective .next) [x] :=
    s.changedOnlyRegs_writeReg b List.mem_cons_self
  refine ⟨⟨_, exec_orReg x y s, frame _, fun b => ?_⟩, ⟨_, exec_andReg x y s, frame _, fun b => ?_⟩,
    ⟨_, exec_xorReg x y s, frame _, fun b => ?_⟩⟩ <;>
    rw [State.readReg_writeReg_applyDirective_same]
  · exact BitVec.getLsbD_or
  · exact BitVec.getLsbD_and
  · exact BitVec.getLsbD_xor

/-! ## The flag, then the result -/

/-- What the instructions that write a flag before their result leave: SUB, SUBN, SHR and SHL. -/
theorem flag_then_result (s : State) (x : Reg) (flag b : Byte) :
    let t := ((s.writeReg .vf flag).writeReg x b).applyDirective .next
    s.ChangedOnlyRegs t [x, .vf] ∧ t.readReg x = b ∧ (x ≠ .vf → t.readReg .vf = flag) := by
  refine ⟨s.changedOnlyRegs_writeReg_writeReg _ _ (by simp) (by simp),
    State.readReg_writeReg_applyDirective_same _ x b _, fun hx => ?_⟩
  rw [State.applyDirective_readReg, State.readReg_writeReg_other _ _ hx.symm, State.readReg_writeReg_same]

/-! ## Subtraction -/

theorem exec_subReg (x y : Reg) (s : State) :
    exec (.subReg x y) s = .next (((s.writeReg .vf (notBorrowFlag (s.readReg x) (s.readReg y))).writeReg x
      (s.readReg x - s.readReg y)).applyDirective .next) := rfl

theorem exec_subnReg (x y : Reg) (s : State) :
    exec (.subnReg x y) s = .next (((s.writeReg .vf (notBorrowFlag (s.readReg y) (s.readReg x))).writeReg x
      (s.readReg y - s.readReg x)).applyDirective .next) := rfl

/-- The difference of two bytes is the difference of the numbers modulo 256. -/
theorem toNat_sub_emod (a b : Byte) : ((a - b).toNat : Int) = (a.toNat - b.toNat : Int) % 256 := by
  rw [BitVec.toNat_sub]
  omega

theorem difference_with_notBorrow (s : State) (x : Reg) (a b : Byte) :
    let t := ((s.writeReg .vf (notBorrowFlag a b)).writeReg x (a - b)).applyDirective .next
    s.ChangedOnlyRegs t [x, .vf] ∧ ((t.readReg x).toNat : Int) = (a.toNat - b.toNat : Int) % 256 ∧
      (x ≠ .vf → t.readReg .vf = if b.toNat ≤ a.toNat then 1 else 0) := by
  obtain ⟨hframe, hx, hvf⟩ := flag_then_result s x (notBorrowFlag a b) (a - b)
  refine ⟨hframe, ?_, fun hne => (hvf hne).trans (flagByte_decide _)⟩
  rw [hx, toNat_sub_emod]

/-- Settles O30: SUB and SUBN are one operation with the operands exchanged; the difference is written last, so it
stands in `V[x]` for every `x`. -/
theorem subtractionsSetNotBorrow : Obligations.SubtractionsSetNotBorrow := fun s x y =>
  ⟨⟨_, exec_subReg x y s, difference_with_notBorrow s x _ _⟩,
    ⟨_, exec_subnReg x y s, difference_with_notBorrow s x _ _⟩⟩

/-! ## Shifts -/

theorem exec_shr (x y : Reg) (s : State) :
    exec (.shr x y) s = .next (((s.writeReg .vf (lowBitFlag (s.readReg x))).writeReg x
      (s.readReg x >>> 1)).applyDirective .next) := rfl

theorem exec_shl (x y : Reg) (s : State) :
    exec (.shl x y) s = .next (((s.writeReg .vf (highBitFlag (s.readReg x))).writeReg x
      (s.readReg x <<< 1)).applyDirective .next) := rfl

theorem lowBitFlag_toNat (a : Byte) : (lowBitFlag a).toNat = a.toNat % 2 := by
  revert a; decide

theorem highBitFlag_toNat (a : Byte) : (highBitFlag a).toNat = a.toNat / 128 := by
  revert a; decide

/-- Settles O31: as for the subtractions, with the dropped bit as the flag; neither answer mentions `y`. -/
theorem shiftsSetDroppedBit : Obligations.ShiftsSetDroppedBit := by
  intro s x y
  refine ⟨⟨_, exec_shr x y s, ?_⟩, ⟨_, exec_shl x y s, ?_⟩, fun y' => ⟨rfl, rfl⟩⟩
  · obtain ⟨hframe, hx, hvf⟩ := flag_then_result s x (lowBitFlag (s.readReg x)) (s.readReg x >>> 1)
    refine ⟨hframe, ?_, fun hne => ?_⟩
    · rw [hx, BitVec.toNat_ushiftRight, Nat.shiftRight_one]
    · rw [hvf hne, lowBitFlag_toNat]
  · obtain ⟨hframe, hx, hvf⟩ := flag_then_result s x (highBitFlag (s.readReg x)) (s.readReg x <<< 1)
    refine ⟨hframe, ?_, fun hne => ?_⟩
    · rw [hx, BitVec.toNat_shiftLeft, Nat.shiftLeft_eq, Nat.pow_one]
    · rw [hvf hne, highBitFlag_toNat]

/-! ## RND -/

theorem exec_rnd (x : Reg) (kk : Byte) (s : State) :
    exec (.rnd x kk) s = .next ((s.drawDone.writeReg x (drawByte s.rngAnswer &&& kk)).applyDirective .next) := rfl

/-- Settles O32: one register write after the draw, which changes the model's own fields alone; on a tick the answer is
the one the host supplies. -/
theorem randomByteIsMasked : Obligations.RandomByteIsMasked := by
  refine ⟨fun s x kk =>
    ⟨_, exec_rnd x kk s, s.drawDone.readReg_writeReg_applyDirective_same x _ _, fun r hr => ?_, ?_, ?_⟩,
    fun s x kk rng hm hp hd => ⟨_, tick_of_exec_next hm hp hd (exec_rnd x kk _), rfl, ?_, ?_⟩⟩
  · rw [State.applyDirective_readReg, State.readReg_writeReg_other _ _ hr, State.drawDone_readReg]
  · rw [State.applyDirective_next_pc, State.writeReg_pc, State.drawDone_pc]
  · rw [State.drawDone_eq]
    rfl
  · rfl
  · refine (State.readReg_writeReg_applyDirective_same _ x (drawByte rng &&& kk) .next).trans ?_
    cases rng with
    | none => exact BitVec.zero_and
    | some b => rfl

end Sys2Proof.Machine
end

section
/-! PROOFS. The index register and the instructions that load and store at it (43_index_memory.md R151 to R155). -/

namespace Sys2Proof.Machine

/-! ## ADD I,Vx and LD F,Vx -/

theorem exec_addI (x : Reg) (s : State) :
    exec (.addI x) s = .next ((s.writeI (s.i + zextByte (s.readReg x))).applyDirective .next) := rfl

theorem exec_ldFont (x : Reg) (s : State) :
    exec (.ldFont x) s = .next ((s.writeI (fontAddress (s.readReg x))).applyDirective .next) := rfl

theorem fontAddress_toNat (a : Byte) : (fontAddress a).toNat = a.toNat * 5 + 0x050 := by
  have hprod : (zextByte a * 5).toNat = a.toNat * 5 := by
    have h5 : (5 : Word).toNat = 5 := rfl
    rw [BitVec.toNat_mul, zextByte_toNat, h5]
    omega
  have hbase : (BitVec.ofNat 16 Config.fontBase).toNat = 0x050 := rfl
  rw [fontAddress, BitVec.toNat_add, hprod, hbase]
  omega

/-- Settles O35: each is one write of `I`; the sum wraps at 65536, and the largest font address does not reach it. -/
theorem indexArithmetic : Obligations.IndexArithmetic := by
  intro s x
  refine ⟨⟨_, exec_addI x s, ?_, rfl⟩, ⟨_, exec_ldFont x s, fontAddress_toNat _, rfl⟩⟩
  rw [State.applyDirective_i, State.writeI_i, BitVec.toNat_add, zextByte_toNat]

/-! ## Stores at `I` -/

/-- What a store at `I` that fits leaves: memory and `PC` alone have changed. -/
theorem setBytes_next_eq (s : State) (a : Nat) (l : List Byte) :
    let t := (s.setBytes a l).applyDirective .next
    t = { s with mem := t.mem, pc := s.pc + 2#16 } := by
  rw [State.setBytes_eq]
  rfl

/-- The digits fit a byte, so each is read back as the number it is. -/
theorem byteAt_setBytes_bcdDigits (s : State) (a : Nat) (b : Byte) :
    let t := s.setBytes a (bcdDigits b)
    (t.byteAt a).toNat = b.toNat / 100 ∧ (t.byteAt (a + 1)).toNat = b.toNat / 10 % 10 ∧
      (t.byteAt (a + 2)).toNat = b.toNat % 10 := by
  have digit {k n : Nat} (hk : k < 3) (hn : n < 256) (hget : (bcdDigits b)[k]'hk = BitVec.ofNat 8 n) :
      ((s.setBytes a (bcdDigits b)).byteAt (a + k)).toNat = n := by
    rw [s.byteAt_setBytes_inside a (bcdDigits b) hk, hget, BitVec.toNat_ofNat, Nat.mod_eq_of_lt hn]
  exact ⟨digit (k := 0) (by decide) (by omega) rfl, digit (by decide) (by omega) rfl,
    digit (by decide) (by omega) rfl⟩

/-- Settles O37: the three stored bytes are the hundreds, tens and ones, and a store leaves every byte outside it. -/
theorem bcdStoresThreeDigits : Obligations.BcdStoresThreeDigits := by
  intro s x
  rw [exec_ldBcd]
  refine ⟨fun h => ⟨_, if_pos h, setBytes_next_eq s _ _, ?_⟩, fun h => if_neg (by omega)⟩
  simp only [State.applyDirective_byteAt]
  obtain ⟨hundreds, tens, ones⟩ := byteAt_setBytes_bcdDigits s s.i.toNat (s.readReg x)
  have frame (a : Nat) (ha : a < s.i.toNat ∨ s.i.toNat + 3 ≤ a) :=
    s.byteAt_setBytes_outside s.i.toNat (bcdDigits (s.readReg x)) ha
  rw [State.indexBase, hundreds, tens, ones]
  exact ⟨by omega, by omega, by omega, by omega, frame⟩

theorem exec_storeRegs_next {s : State} {x : Reg} (h : s.i.toNat + x.toNat < 4096) :
    exec (.storeRegs x) s = .next ((s.setBytes s.indexBase (s.readRegs x)).applyDirective .next) := by
  rw [exec_storeRegs, if_pos h]
  rfl

theorem byteAt_setBytes_readRegs (s : State) (a : Nat) {x r : Reg} (h : r.toNat ≤ x.toNat) :
    (s.setBytes a (s.readRegs x)).byteAt (a + r.toNat) = s.readReg r := by
  have hlen : r.toNat < (s.readRegs x).length := by
    rw [State.length_readRegs]
    omega
  rw [State.byteAt_setBytes_inside s a _ hlen, State.getElem_readRegs]

/-- Settles O38: byte `r` of the stored list is register `r`, and the list has x + 1 bytes. -/
theorem registerDumpStoresInclusiveRange : Obligations.RegisterDumpStoresInclusiveRange := by
  intro s x
  refine ⟨fun h => ⟨_, exec_storeRegs_next h, setBytes_next_eq s _ _, fun r hr => ?_, fun a ha => ?_⟩, fun h => ?_⟩
  · rw [State.applyDirective_byteAt, byteAt_setBytes_readRegs s _ hr]
  · rw [State.applyDirective_byteAt, State.byteAt_setBytes_outside]
    rw [State.length_readRegs]
    omega
  · rw [exec_storeRegs, if_neg (by omega)]

/-- Settles O40: `I` is the next `PC`, so the next fetch reads the first two bytes of the dump. -/
theorem storeIsSeenByTheNextFetch : Obligations.StoreIsSeenByTheNextFetch := by
  intro s x hx hi hrange
  refine ⟨_, exec_storeRegs_next hrange, ?_⟩
  have hpc : (((s.setBytes s.indexBase (s.readRegs x)).applyDirective .next).pc).toNat = s.indexBase := by
    rw [State.applyDirective_next_pc, State.setBytes_pc, ← hi]
    rfl
  have h0 := byteAt_setBytes_readRegs s s.indexBase (x := x) (r := 0) (Nat.zero_le _)
  have h1 := byteAt_setBytes_readRegs s s.indexBase (x := x) (r := 1) hx
  rw [State.fetch_eq, hpc, if_pos (by unfold State.indexBase; omega)]
  simp only [State.applyDirective_byteAt]
  exact congrArg Except.ok (congrArg₂ composeOpcode h0 h1)

/-! ## Loads from `I` -/

/-- Settles O39: the list read has x + 1 bytes, byte `r` of it at `I + r`, and a register load from 0 puts byte `r` in
register `r`. -/
theorem registerLoadReadsInclusiveRange : Obligations.RegisterLoadReadsInclusiveRange := by
  intro s x
  have hlen : ((List.range (x.toNat + 1)).map fun k => s.byteAt (s.i.toNat + k)).length = x.toNat + 1 := by
    rw [List.length_map, List.length_range]
  rw [exec_loadRegs]
  refine ⟨fun h => ⟨_, if_pos h, ?_, fun r hr => ?_, fun r hr => ?_⟩, fun h => if_neg (by omega)⟩
  · rw [State.writeRegs_eq]
    rfl
  · rw [State.applyDirective_readReg, State.readReg_writeRegs s 0 _ r (by omega), dif_pos (by omega),
      List.getElem_map, List.getElem_range]
    rfl
  · rw [State.applyDirective_readReg, State.readReg_writeRegs s 0 _ r (by omega), dif_neg (by omega)]

end Sys2Proof.Machine
end

section
/-! PROOFS. DRW and the view of the framebuffer (44_display.md R171, R172, 60_exceptions.md R206). -/

namespace Sys2Proof.Machine

/-! ## The view -/

theorem State.view_fb (s : State) : s.view.fb = fbView s.fb := by
  simp only [State.view]

theorem fbView_eq (fb : Framebuffer) :
    fbView fb = (List.range 2048).map fun k => if fbPixel fb (k / 64) (k % 64) then 1 else 0 := rfl

/-- Settles O56: element k of the view is the cell in row k / 64 and column k % 64. -/
theorem framebufferViewIsRowMajor : Obligations.FramebufferViewIsRowMajor := by
  intro s
  rw [State.view_fb, fbView_eq]
  refine ⟨by rw [List.length_map, List.length_range], fun y x hy hx => ?_⟩
  have hdiv : (y * 64 + x) / 64 = y := by omega
  have hmod : (y * 64 + x) % 64 = x := by omega
  rw [List.getElem?_map, List.getElem?_range (by omega), Option.map_some, hdiv, hmod]

/-! ## DRW -/

/-- The rows of a sprite of `n` bytes at `I`. -/
def State.spriteRows (s : State) (n : Nibble) : List Byte :=
  (List.range n.toNat).map fun k => s.byteAt (s.indexBase + k)

/-- The sprite bit that a DRW from `s` puts on a cell. -/
def State.drawBit (s : State) (x y : Reg) (n : Nibble) : Nat → Nat → Bool :=
  spriteBit ((s.readReg y).toNat % 32) ((s.readReg x).toNat % 64) (s.spriteRows n)

/-- 44_display.md R171, R172: what a DRW whose rows are in memory does. -/
theorem exec_drw_next {s : State} (x y : Reg) {n : Nibble} (h : n.toNat = 0 ∨ s.i.toNat + n.toNat - 1 < 4096) :
    ∃ t hit, exec (.drw x y n) s = .next t ∧ t.readReg .vf = flagByte hit ∧
      (∀ cy cx, cy < 32 → cx < 64 → fbPixel t.fb cy cx = (fbPixel s.fb cy cx ^^ s.drawBit x y n cy cx)) ∧
      (hit = true ↔ ∃ cy cx, cy < 32 ∧ cx < 64 ∧ fbPixel s.fb cy cx = true ∧ s.drawBit x y n cy cx = true) ∧
      (∀ r, r ≠ .vf → t.readReg r = s.readReg r) ∧ t.dirty = true ∧
      t = { s with v := t.v, fb := t.fb, dirty := t.dirty, pc := s.pc + 2#16 } := by
  obtain ⟨hcell, hhit⟩ := plotRows_spec (originY (s.readReg y)) (originX (s.readReg x)) 0 (s.spriteRows n) (s.fb, false)
  refine ⟨_, _, (exec_drw x y n s).trans (if_pos h), ?_, hcell, hhit.trans (or_iff_right Bool.false_ne_true),
    fun r hr => ?_, rfl, rfl⟩
  · rw [State.applyDirective_readReg, State.readReg_writeReg_same]
    rfl
  · rw [State.applyDirective_readReg, State.readReg_writeReg_other _ _ hr, State.present_readReg]

theorem flagByte_eq_one_iff (c : Bool) : flagByte c = 1 ↔ c = true := by
  cases c <;> decide

/-- Settles O42: the sprite lands by exclusive-or, and the flag is the byte of the collision mark. -/
theorem drawXorsSpriteAndDetectsCollision : Obligations.DrawXorsSpriteAndDetectsCollision := by
  intro s x y n
  refine ⟨fun hn hi => ?_, fun h => ?_⟩
  · rw [exec_drw, if_neg (by omega)]
  · obtain ⟨t, hit, he, hvf, hcell, hhit, hreg, hdirty, hframe⟩ := exec_drw_next x y h
    refine ⟨t, he, hcell, ?_, ?_, hreg, hdirty, hframe⟩
    · rw [hvf]
      exact (flagByte_eq_zero_or_one hit).symm
    · rw [hvf, flagByte_eq_one_iff]
      exact hhit

/-- The sprite and its place do not depend on what a draw changes. -/
theorem drawBit_of_frame {s t : State} {x y : Reg} (n : Nibble) (hx : t.readReg x = s.readReg x)
    (hy : t.readReg y = s.readReg y) (ht : t = { s with v := t.v, fb := t.fb, dirty := t.dirty, pc := t.pc }) :
    t.drawBit x y n = s.drawBit x y n := by
  have hrows : t.spriteRows n = s.spriteRows n := by
    rw [ht]
    rfl
  unfold State.drawBit
  rw [hx, hy, hrows]

/-- Two draws of the same bits: the second finds each cell under the sprite inverted, so one of the two finds it lit. -/
theorem collides_once_iff {f g : Framebuffer} {bit : Nat → Nat → Bool}
    (hg : ∀ cy cx, cy < 32 → cx < 64 → fbPixel g cy cx = (fbPixel f cy cx ^^ bit cy cx)) :
    ((∃ cy cx, cy < 32 ∧ cx < 64 ∧ fbPixel f cy cx = true ∧ bit cy cx = true) ∨
      ∃ cy cx, cy < 32 ∧ cx < 64 ∧ fbPixel g cy cx = true ∧ bit cy cx = true) ↔
    ∃ cy cx, cy < 32 ∧ cx < 64 ∧ bit cy cx = true := by
  constructor
  · rintro (⟨cy, cx, hcy, hcx, -, hb⟩ | ⟨cy, cx, hcy, hcx, -, hb⟩) <;> exact ⟨cy, cx, hcy, hcx, hb⟩
  · rintro ⟨cy, cx, hcy, hcx, hb⟩
    cases hp : fbPixel f cy cx with
    | true => exact .inl ⟨cy, cx, hcy, hcx, hp, hb⟩
    | false => exact .inr ⟨cy, cx, hcy, hcx, by rw [hg cy cx hcy hcx, hp, hb]; rfl, hb⟩

/-- Settles O43: the second draw has the same bits as the first, and exclusive-or with them twice is the identity. -/
theorem drawTwiceRestoresTheFramebuffer : Obligations.DrawTwiceRestoresTheFramebuffer := by
  intro s x y n hx hy h
  obtain ⟨t, hit, he, hvf, hcell, hhit, hreg, -, hframe⟩ := exec_drw_next x y h
  have hi : t.i = s.i := by rw [hframe]
  obtain ⟨u, hit', he', hvf', hcell', hhit', -⟩ := exec_drw_next (s := t) x y (hi ▸ h)
  have hbit : t.drawBit x y n = s.drawBit x y n :=
    drawBit_of_frame n (hreg x hx) (hreg y hy) (hframe.trans (by rw [hframe]))
  rw [hbit] at hcell' hhit'
  have hone : t.readReg .vf = 1 ∨ u.readReg .vf = 1 ↔ ∃ cy cx, cy < 32 ∧ cx < 64 ∧ s.drawBit x y n cy cx = true := by
    rw [hvf, hvf', flagByte_eq_one_iff, flagByte_eq_one_iff, hhit, hhit']
    exact collides_once_iff hcell
  refine ⟨t, u, he, he', fb_ext fun cy cx hcy hcx => ?_, hone, fun hclear => ?_⟩
  · rw [hcell' cy cx hcy hcx, hcell cy cx hcy hcx, Bool.xor_assoc, Bool.xor_self, Bool.xor_false]
  · have hmiss : hit = false := by
      rw [← Bool.not_eq_true, hhit]
      rintro ⟨cy, cx, -, -, hlit, -⟩
      exact Bool.false_ne_true ((hclear cy cx).symm.trans hlit)
    have hzero : t.readReg .vf = 0 := by rw [hvf, hmiss]; rfl
    refine ⟨hzero, Iff.trans ?_ hone⟩
    rw [hzero]
    exact (or_iff_right (by decide)).symm

end Sys2Proof.Machine
end

section
/-! PROOFS. SKP and SKNP (45_keypad_timers.md R180, R181, R186). -/

namespace Sys2Proof.Machine

theorem exec_skp_of_level {s : State} {x : Reg} {down : Bool} (h : s.keyLevel (s.readReg x) = .ok down) :
    exec (.skp x) s = .next { s with pc := if down = true then s.pc + 4#16 else s.pc + 2#16 } := by
  simp only [exec, execSkp, h, orRaise_ok, complete_skipIf]

theorem exec_sknp_of_level {s : State} {x : Reg} {down : Bool} (h : s.keyLevel (s.readReg x) = .ok down) :
    exec (.sknp x) s = .next { s with pc := if down = true then s.pc + 2#16 else s.pc + 4#16 } := by
  simp only [exec, execSknp, h, orRaise_ok]
  cases down <;> rfl

theorem keyLevel_small {s : State} {a : Byte} (h : a.toNat ≤ 15) : s.keyLevel a = .ok (s.keyDown (a.setWidth 4)) :=
  if_pos h

theorem keyLevel_lowNibble {s : State} (a : Byte) (hp : s.config.keyIndexPolicy = .lowNibble) :
    s.keyLevel a = .ok (s.keyDown (a.setWidth 4)) := by
  simp [State.keyLevel, hp]

theorem keyLevel_notPressed {s : State} {a : Byte} (h : 15 < a.toNat) (hp : s.config.keyIndexPolicy = .notPressed) :
    s.keyLevel a = .ok false := by
  simp [State.keyLevel, hp, Nat.not_le.2 h]

theorem keyLevel_fault {s : State} {a : Byte} (h : 15 < a.toNat) (hp : s.config.keyIndexPolicy = .fault) :
    s.keyLevel a = .error .keyIndexError := by
  simp [State.keyLevel, hp, Nat.not_le.2 h]

/-- A key number up to 15, or above with policy low_nibble, names the key of its low nibble. -/
theorem keyLevel_of_number {s : State} {a : Byte} {k : Nibble} (h : a.toNat = k.toNat ∨
    (15 < a.toNat ∧ s.config.keyIndexPolicy = .lowNibble ∧ a.toNat % 16 = k.toNat)) :
    s.keyLevel a = .ok (s.keyDown k) := by
  have hk : a.setWidth 4 = k := by
    apply BitVec.eq_of_toNat_eq
    rw [BitVec.toNat_setWidth]
    omega
  subst hk
  obtain h | ⟨-, hp, -⟩ := h
  · exact keyLevel_small (by omega)
  · exact keyLevel_lowNibble a hp

/-- Settles O44: each clause fixes the level the skip goes by, or the condition it raises. -/
theorem keySkips : Obligations.KeySkips := by
  intro s x
  refine ⟨fun k hk => ?_, fun h hp => ?_, fun h hp => ?_⟩
  · have hl := keyLevel_of_number hk
    exact ⟨⟨_, exec_skp_of_level hl, rfl, rfl⟩, ⟨_, exec_sknp_of_level hl, rfl, rfl⟩⟩
  · have hl := keyLevel_notPressed h hp
    exact ⟨exec_skp_of_level hl, exec_sknp_of_level hl⟩
  · have hl := keyLevel_fault h hp
    simp only [exec, execSkp, execSknp, hl, orRaise_error, and_self]

end Sys2Proof.Machine
end
